-- ==== Sys2Proof/Word.lean ====
section
/-! DEFINITION. The values a cell or a register can hold: texts, numbers and words (10_state.md R22, R23, R24).
Simpletron is a decimal machine whose words are integers, numbers or strings, never bit patterns (20_memory.md R64),
so no bit vector stands here. -/

namespace Sys2Proof

/-- A finite character string (10_state.md R23). -/
abbrev Text := List Char

/-- The number domain (43_arithmetic.md R232, parameter XNUM). `rat q` is the rational `q`; the integers are embedded as
the rationals of denominator 1, so that one integer has one representation (R22: exactly one zero). `special k` is any
value an instantiation of XNUM may have beside the rationals (a negative zero, an infinity, a NaN); nothing but the
opaque constants of Config says how one behaves. Whether a non-integral rational is a member of XNUM is
`Config.hasFraction`. -/
inductive XNum where
  | rat (q : Rat)
  | special (k : Nat)
  deriving DecidableEq, Repr, Inhabited

/-- The embedding of the integers (R232). -/
def XNum.ofInt (z : Int) : XNum := .rat z

/-- A memory word: `XWord = Num(x) | Str(s)` (10_state.md R23). A BASIC word is the `num` of an integer in
[-9999, 9999] (R22), which is an invariant of a BASIC core (`Safety.lean`). -/
inductive Word where
  | num (x : XNum)
  | str (s : Text)
  deriving DecidableEq, Repr, Inhabited

/-- The word that holds the integer `z`. -/
def Word.ofInt (z : Int) : Word := .num (.ofInt z)

end Sys2Proof
end

