-- ==== Sys2Proof/Config.lean ====
section
/-! DEFINITION. The parameters of the core (00_scope.md R5). The fixed ones are definitions; the OPEN ones are opaque
constants without a body, so that nothing can be proved about their values. -/

namespace Sys2Proof

/-- The static parameter VARIANT (00_scope.md R2): a core is built as one or the other. -/
inductive Variant where
  | basic
  | extended
  deriving DecidableEq, Repr, Inhabited

/-- `N`, the number of memory words (R5, 10_state.md R21). -/
def Variant.words : Variant → Nat
  | .basic => 100
  | .extended => 1000

/-- The kinds of input an instruction requests: `number` (READ) and `string` (READ_STRING) (10_state.md R31, decision
D16; log entry 17). -/
inductive InputKind where
  | number
  | string
  deriving DecidableEq, Repr, Inhabited

namespace Config

/-- `WMAX`, the bound of a BASIC word and of the BASIC accumulator (R5). -/
def wmax : Nat := 9999

/-- `OPDIV`, the divisor of the decode split, 100 in both variants (R5, decision D4). -/
def opdiv : Nat := 100

/-- `HALT_MSG`, the text of the termination message (R5, OPEN; log entry 10). -/
opaque haltMsg : Text

/-- `PROMPT(kind)`, the text of an input prompt (R5, OPEN; log entry 10). -/
opaque prompt : InputKind → Text

/-- `FMT_X` for a non-integral number in float mode: the sign prefix, none, `-` (`true`) or `+` (`false`) (41_io.md R170,
OPEN; log entry 11). -/
opaque fmtSign : Rat → Option Bool

/-- `FMT_X` for a non-integral number in float mode: the padding, how many spaces stand before the sign and how many
zeros after it (R170, OPEN; log entry 11). -/
opaque fmtPadding : Rat → Nat × Nat

/-- `FMT_X` for a non-integral number in float mode: whether a magnitude that is no whole number of hundredths is rounded
up to the next one (R170, OPEN; log entry 11). -/
opaque fmtRoundsUp : Rat → Bool

/-- `FMT_X` for every other number that is no integer (R170, OPEN; log entry 11). -/
opaque fmtX : XNum → Bool → Text

/-- Which non-integral rationals are members of XNUM (43_arithmetic.md R232, OPEN; log entry 4). -/
opaque hasFraction : Rat → Bool

/-- The result of `add` where the laws of R232 do not give it (log entries 4 and 5). -/
opaque xnumAdd : XNum → XNum → XNum

/-- The result of `sub` where the laws of R232 do not give it. -/
opaque xnumSub : XNum → XNum → XNum

/-- The result of `mul` where the laws of R232 do not give it. -/
opaque xnumMul : XNum → XNum → XNum

/-- The result of `div` where the laws of R232 do not give it; on integers it counts only if it obeys law 3. -/
opaque xnumDiv : XNum → XNum → XNum

/-- The result of `rem` on operands that are not both integers (R225, R232). -/
opaque xnumRem : XNum → XNum → XNum

/-- The result of `pow` outside integer base and integer exponent at least 1, and `a ^ 0` for `a ≠ 0` (R226, D22). -/
opaque xnumPow : XNum → XNum → XNum

/-- The result of `floor` on a special value (R232). -/
opaque xnumFloor : Nat → XNum

/-- Which special values are zero (43_arithmetic.md R223: "where XNUM has one, a negative zero is too"). -/
opaque specialIsZero : Nat → Bool

/-- Which special values that are not zero are below zero (R232, law 5). -/
opaque specialIsNeg : Nat → Bool

/-- Whether the loader of an EXTENDED core accepts sequential program lines: "not in source and not decided"
(93_implementation_defined.md item 28; log entry 13). -/
opaque extendedSequential : Bool

/-- Whether a bare `-99999` ends the reading in an EXTENDED core whose loader accepts no sequential lines: the spec has
the sentinel "anywhere" and as the value of a sequential line (30_encoding.md R105), which such a core lacks (log
entry 13). -/
opaque extendedBareSentinel : Bool

end Config
end Sys2Proof
end

