-- ==== Sys2Proof/Syntax.lean ====
section
/-! DEFINITION. The instructions of SML, one constructor per row of spec/opcode_table.json (30_encoding.md R94, R95).
Every instruction carries the operand digits of its word, the ignored ones of HALT and WRITE_NEWLINE too. -/

namespace Sys2Proof

/-- One SML instruction. The argument is the operand, 0..99 in a well-formed instruction (R92, R93). -/
inductive Instr where
  | read (a : Nat)
  | write (a : Nat)
  | readString (a : Nat)
  | writeString (a : Nat)
  | writeNewline (a : Nat)
  | load (a : Nat)
  | store (a : Nat)
  | add (a : Nat)
  | subtract (a : Nat)
  | divide (a : Nat)
  | multiply (a : Nat)
  | modulo (a : Nat)
  | power (a : Nat)
  | branch (a : Nat)
  | branchneg (a : Nat)
  | branchzero (a : Nat)
  | halt (a : Nat)
  | loadFloat (a : Nat)
  | storeFloat (a : Nat)
  | addFloat (a : Nat)
  | subtractFloat (a : Nat)
  | divideFloat (a : Nat)
  | multiplyFloat (a : Nat)
  deriving DecidableEq, Repr, Inhabited

/-- The operand digits of an instruction (R93). -/
def Instr.operand : Instr → Nat
  | .read a | .write a | .readString a | .writeString a | .writeNewline a | .load a | .store a | .add a | .subtract a
  | .divide a | .multiply a | .modulo a | .power a | .branch a | .branchneg a | .branchzero a | .halt a | .loadFloat a
  | .storeFloat a | .addFloat a | .subtractFloat a | .divideFloat a | .multiplyFloat a => a

end Sys2Proof
end

