-- ==== Sys2Proof/WellFormed.lean ====
section
/-! DEFINITION. Which instruction terms are instructions of the machine: the operand has two decimal digits
(30_encoding.md R92), and the variant's table has the row (R94, R95). -/

namespace Sys2Proof

/-- The operand is two decimal digits (R91, R92: "`operand` is always in 0..99"). -/
def Instr.wellFormed (i : Instr) : Bool := i.operand < Config.opdiv

/-- The row is in the variant's table: the eleven rows of R95 are EXTENDED only. -/
def Instr.inTable : Variant → Instr → Bool
  | .extended, _ => true
  | .basic, .readString _ | .basic, .writeString _ | .basic, .writeNewline _ | .basic, .modulo _ | .basic, .power _
  | .basic, .loadFloat _ | .basic, .storeFloat _ | .basic, .addFloat _ | .basic, .subtractFloat _
  | .basic, .divideFloat _ | .basic, .multiplyFloat _ => false
  | .basic, .read _ | .basic, .write _ | .basic, .load _ | .basic, .store _ | .basic, .add _ | .basic, .subtract _
  | .basic, .divide _ | .basic, .multiply _ | .basic, .branch _ | .basic, .branchneg _ | .basic, .branchzero _
  | .basic, .halt _ => true

/-- A well-formed instruction of the variant. -/
def Instr.wellFormedIn (v : Variant) (i : Instr) : Bool := i.wellFormed && i.inTable v

end Sys2Proof
end

