-- ==== Sys2Proof/Decode.lean ====
section
/-! DEFINITION. Decoding of words, total on every word and rejecting by name, and after it the encoder
(30_encoding.md R90 to R100). The bit view `bcd17` of R100 is the numbering of spec/opcode_table.json only. -/

namespace Sys2Proof

/-! ### The integer value of a word (R98) -/

/-- The value of one hexadecimal digit `0-9A-Fa-f` (R106). -/
def hexDigit? (c : Char) : Option Nat :=
  if '0' ≤ c ∧ c ≤ '9' then some (c.toNat - 48)
  else if 'A' ≤ c ∧ c ≤ 'F' then some (c.toNat - 55)
  else if 'a' ≤ c ∧ c ≤ 'f' then some (c.toNat - 87)
  else none

/-- The number spelled by hexadecimal digits, most significant first, added to `acc * 16 ^ length`. -/
def hexDigits? (acc : Nat) : Text → Option Nat
  | [] => some acc
  | c :: cs => (hexDigit? c).bind fun d => hexDigits? (acc * 16 + d) cs

/-- The value of a `0x` literal: `0x`, then one or more hexadecimal digits, no sign (R106); `none` for any other text. -/
def hexLiteral? : Text → Option Nat
  | '0' :: 'x' :: c :: cs => hexDigits? 0 (c :: cs)
  | _ => none

/-- The integer a rational value of XNUM is, if it is one (R232, "is an integer"). -/
def XNum.exactInt? : XNum → Option Int
  | .rat q => if q.den = 1 then some q.num else none
  | .special _ => none

/-- The integer a number is, if it is one; a special value that is zero is the integer 0 (R232). -/
def XNum.int? : XNum → Option Int
  | .rat q => if q.den = 1 then some q.num else none
  | .special k => if Config.specialIsZero k then some 0 else none

/-- The integer value of a fetched word (R98): an integer number, or a `0x` literal's value. -/
def Word.int? : Word → Option Int
  | .num x => x.int?
  | .str s => (hexLiteral? s).map Int.ofNat

/-! ### The decode split and the opcode map (R91, R94, R95) -/

/-- `opcode = floor(|w| / 100)`, `operand = |w| mod 100` (R91). -/
def splitInt (w : Int) : Nat × Nat := (w.natAbs / Config.opdiv, w.natAbs % Config.opdiv)

/-- The opcode map (R94, R95); `none` for an opcode with no row (R96). The variant's table is checked when the
instruction is dispatched (`Machine.extendedOnly`). -/
def instrOf (opc opd : Nat) : Option Instr :=
  match opc with
  | 10 => some (.read opd)
  | 11 => some (.write opd)
  | 12 => some (.readString opd)
  | 13 => some (.writeString opd)
  | 14 => some (.writeNewline opd)
  | 20 => some (.load opd)
  | 21 => some (.store opd)
  | 30 => some (.add opd)
  | 31 => some (.subtract opd)
  | 32 => some (.divide opd)
  | 33 => some (.multiply opd)
  | 34 => some (.modulo opd)
  | 35 => some (.power opd)
  | 40 => some (.branch opd)
  | 41 => some (.branchneg opd)
  | 42 => some (.branchzero opd)
  | 43 => some (.halt opd)
  | 50 => some (.loadFloat opd)
  | 51 => some (.storeFloat opd)
  | 52 => some (.addFloat opd)
  | 53 => some (.subtractFloat opd)
  | 54 => some (.divideFloat opd)
  | 55 => some (.multiplyFloat opd)
  | _ => none

/-- Why a word is no instruction: it has no integer value (R98 (c)), or its opcode has no row (R96). -/
inductive DecodeError where
  | noIntegerValue
  | noSuchOpcode (opc : Nat)
  deriving DecidableEq, Repr

/-- The instruction a word is, or why it is none (R91, R96, R98). -/
def decode (w : Word) : Except DecodeError Instr :=
  match w.int? with
  | none => .error .noIntegerValue
  | some z =>
    match instrOf (splitInt z).1 (splitInt z).2 with
    | none => .error (.noSuchOpcode (splitInt z).1)
    | some i => .ok i

/-! ### The encoder -/

/-- The opcode of each row (R94, R95). -/
def Instr.opcode : Instr → Nat
  | .read _ => 10
  | .write _ => 11
  | .readString _ => 12
  | .writeString _ => 13
  | .writeNewline _ => 14
  | .load _ => 20
  | .store _ => 21
  | .add _ => 30
  | .subtract _ => 31
  | .divide _ => 32
  | .multiply _ => 33
  | .modulo _ => 34
  | .power _ => 35
  | .branch _ => 40
  | .branchneg _ => 41
  | .branchzero _ => 42
  | .halt _ => 43
  | .loadFloat _ => 50
  | .storeFloat _ => 51
  | .addFloat _ => 52
  | .subtractFloat _ => 53
  | .divideFloat _ => 54
  | .multiplyFloat _ => 55

/-- The word `+OOAA` of an instruction (R92); the word `-OOAA` decodes to the same instruction (R97). -/
def encode (i : Instr) : Int := i.opcode * Config.opdiv + i.operand

/-! ### The bit view of the opcode table (R100) -/

/-- Decimal digit `k` of `m` (00_scope.md R6). -/
def digit (k m : Nat) : Nat := m / 10 ^ k % 10

/-- The `bcd17` view of a word of at most four digits (R100); `none` for a longer one. -/
def bcd17? (w : Int) : Option Nat :=
  let m := w.natAbs
  if m ≤ Config.wmax then
    some ((if w < 0 then 1 else 0) * 2 ^ 16 + digit 3 m * 2 ^ 12 + digit 2 m * 2 ^ 8 + digit 1 m * 2 ^ 4 + digit 0 m)
  else none

/-- The word a `bcd17` pattern denotes (R100); "patterns with a nibble of 10..15 denote no word". -/
def bcd17Word? (b : Nat) : Option Int :=
  let d3 := b / 2 ^ 12 % 16
  let d2 := b / 2 ^ 8 % 16
  let d1 := b / 2 ^ 4 % 16
  let d0 := b % 16
  if b < 2 ^ 17 ∧ d3 ≤ 9 ∧ d2 ≤ 9 ∧ d1 ≤ 9 ∧ d0 ≤ 9 then
    let m : Int := (d3 * 1000 + d2 * 100 + d1 * 10 + d0 : Nat)
    some (if b / 2 ^ 16 = 1 then -m else m)
  else none

/-- The word of a table pattern: the low `nbits` bits of `w`, read as `bcd17`. -/
def tableWord? (nbits w : Nat) : Option Int := bcd17Word? (w % 2 ^ nbits)

/-- The instruction the decoder reads from a table pattern (log entry 16). -/
def decodeTableWord (nbits w : Nat) : Option Instr :=
  (tableWord? nbits w).bind fun z => (decode (.ofInt z)).toOption

end Sys2Proof
end

