-- ==== Sys2Proof/Machine/State.lean ====
section
/-! DEFINITION. The state of the core, what a command returns, the commands of the host, and the reset state
(10_state.md R20 to R41, 60_exceptions.md R281 to R288). -/

namespace Sys2Proof.Machine

/-- Why the machine stops with a fault. Neither reason can arise from a state that satisfies `Inv` (Safety.lean); both
stand for states that no core is ever in ("only truly unreachable internal invariant violations would be a defect",
60_exceptions.md R294). -/
inductive Fault where
  /-- Raised by PROVIDE_INPUT of a number when the recorded target is outside `[0, N)`; safe: `MemWrite` is never called
  outside its domain (20_memory.md R61). -/
  | addressOutsideMemory
  /-- Raised by the BASIC arithmetic instructions when ACC or the operand is no integer; safe: a BASIC word is an
  integer (10_state.md R22). -/
  | notABasicWord
  deriving DecidableEq, Repr

/-- Why a command has no meaning. The reasons after the first are the spec's own refusals (00_scope.md R7), all of
EXTENDED. -/
inductive Refusal where
  /-- Raised by an arm of `exec` whose instruction is not modelled; no arm does. -/
  | notModelled (mnemonic : String)
  /-- Raised by LOAD, LOAD_FLOAT, WRITE and the arithmetic instructions when the memory operand is a `Str`
  (43_arithmetic.md R233); safe. -/
  | stringOperand
  /-- Raised by WRITE_STRING when the header is a number but no non-negative integer multiple of 100 (41_io.md R163);
  safe. -/
  | malformedHeader
  /-- Raised by WRITE_STRING when a body word is no non-negative integer number (R163); safe. -/
  | malformedBody
  /-- Raised by PROVIDE_INPUT of a string with a character outside ASCII (R167) and by WRITE_STRING when a character
  code above 127 is unpacked (R168); safe. -/
  | outsideAscii
  deriving DecidableEq, Repr

/-- The error labels (60_exceptions.md R281, R287, R288). -/
inductive ErrorLabel where
  /-- "invalid instruction counter" -/
  | eCounter
  /-- "invalid operand address" -/
  | eOperand
  /-- "invalid operation code" -/
  | eOpcode
  /-- "arithmetic overflow (basic variant only)" -/
  | eOverflow
  /-- "division/modulo by zero" -/
  | eDivZero
  /-- "not awaiting input" -/
  | iNotWaiting
  /-- "unparseable or out-of-range provided value" -/
  | iBadValue
  /-- "invalid address range" -/
  | lAddr
  /-- "invalid word range" -/
  | lWord
  /-- "unparseable numeric token" -/
  | lParse
  deriving DecidableEq, Repr

/-- The code of an error label (R281, R287, R288). -/
def ErrorLabel.code : ErrorLabel → Nat
  | .eCounter => 1
  | .eOperand => 2
  | .eOpcode => 3
  | .eOverflow => 4
  | .eDivZero => 5
  | .iNotWaiting => 6
  | .iBadValue => 7
  | .lAddr => 8
  | .lWord => 9
  | .lParse => 10

/-- Memory as the list of its words that are not 0, by rising address (`Memory.wf`, Ops.lean): the smallest unit of
this machine is the word (20_memory.md R64, R65; log entry 9). -/
abbrev Memory := List (Nat × Word)

/-- `Awaiting(kind, target)` (10_state.md R31). -/
structure Pending where
  kind : InputKind
  target : Nat
  deriving DecidableEq, Repr

/-- An entry of the output log (10_state.md R32). -/
inductive OutEntry where
  | outNum (v : XNum) (fm : Bool)
  | outStr (t : Text)
  | outNewline
  | outHalt
  deriving DecidableEq, Repr

/-- The architectural state, "and nothing else" (10_state.md R20, R33). -/
structure CoreState where
  /-- `memory` (R21) -/
  memory : Memory
  /-- `ACC`, the accumulator (R24) -/
  acc : XNum
  /-- `IC`, the instruction counter (R25) -/
  ic : Nat
  /-- `IR`, the instruction register (R26) -/
  ir : Word
  /-- `OPC`, the operation code (R27) -/
  opc : Nat
  /-- `OPD`, the operand (R28) -/
  opd : Nat
  /-- `RUN`, isRunning (R29) -/
  run : Bool
  /-- `HLT`, isHalted (R29) -/
  hlt : Bool
  /-- `FM`, floatMode (R30); constant false in BASIC -/
  fm : Bool
  /-- `PEND`, the pending-input record (R31) -/
  pend : Option Pending
  /-- `OUT`, the output log (R32) -/
  out : List OutEntry
  deriving DecidableEq, Repr

/-- The outcome record of STEP and PROVIDE_INPUT (10_state.md R37). -/
structure OutcomeRecord where
  success : Bool
  error : Option ErrorLabel
  output : Option Text
  needsInput : Bool
  inputPrompt : Option Text
  inputType : Option InputKind
  deriving DecidableEq, Repr

/-- What the last command returned (R36). The core never reads it (decision D32: errors live in outcomes only). -/
inductive Reply where
  /-- no command has been issued yet -/
  | nothing
  /-- RESET: "no return value beyond completion" -/
  | completed
  /-- a successful LOAD -/
  | loaded
  /-- a failed LOAD: the error and the position of the offending entry or line, counted from 0 (log entry 15) -/
  | loadFailed (error : ErrorLabel) (position : Nat)
  /-- STEP and PROVIDE_INPUT -/
  | outcome (o : OutcomeRecord)
  /-- SNAPSHOT: a copy of the state (60_exceptions.md R299) -/
  | snapshot (copy : CoreState)
  deriving DecidableEq, Repr

/-- The value of PROVIDE_INPUT: a number or a string (R36). -/
inductive InputValue where
  | number (x : XNum)
  | text (t : Text)
  deriving DecidableEq, Repr

/-- A value of a program image: a decimal value or a hex literal (30_encoding.md R104, R106, R107). -/
inductive ImageValue where
  | dec (z : Int)
  | hex (t : Text)
  deriving DecidableEq, Repr

/-- A program image: entries `(address, value)` in order (30_encoding.md R109). -/
abbrev Image := List (Int × ImageValue)

/-- The commands of the host (10_state.md R36). LOAD takes a parsed image or a program text (70_reset_and_hazards.md
R332). -/
inductive Command where
  | reset
  | load (image : Image)
  | loadText (text : Text)
  | step
  | provideInput (v : InputValue)
  | snapshot
  deriving DecidableEq, Repr

/-- The machine: the architectural state, the static parameter VARIANT (log entry 1), the host's commands still to come,
oldest first (log entry 2), and the reply to the last one (log entry 3). -/
structure State extends CoreState where
  variant : Variant
  commands : List Command
  reply : Reply
  deriving DecidableEq, Repr

/-- The reset values (10_state.md R34). -/
def CoreState.reset : CoreState :=
  { memory := [], acc := .ofInt 0, ic := 0, ir := .ofInt 0, opc := 0, opd := 0, run := false, hlt := false, fm := false,
    pend := none, out := [] }

/-- A core of the variant right after power-on or reset (R34, 70_reset_and_hazards.md R330, R331). -/
def State.resetOf (v : Variant) : State :=
  { toCoreState := CoreState.reset, variant := v, commands := [], reply := .nothing }

/-- The machine right after reset; the variant is EXTENDED, whose table has all the rows (DESIGN CHOICE, log entry 1). -/
def State.reset : State := .resetOf .extended

end Sys2Proof.Machine
end

