-- ==== Sys2Proof/Machine/Ops.lean ====
section
/-! DEFINITION. The named operations over memory, registers, the output log and the reply (20_memory.md R61, R67, R74;
40_cycle.md R136 to R138). Taking an execution error is the one operation `State.raise`; this machine has no return from
an error (60_exceptions.md R293). -/

namespace Sys2Proof.Machine

/-- What a command answers. -/
abbrev Result := Host.Outcome State Fault Refusal

/-! ### Memory -/

/-- What a word that is not listed reads as: 0 (10_state.md R34, 20_memory.md R63). -/
def Memory.unlisted : Word := .ofInt 0

/-- `MemRead(a, 1)` (20_memory.md R61). -/
def Memory.read (m : Memory) (a : Nat) : Word :=
  match m with
  | [] => Memory.unlisted
  | (b, w) :: rest => if a = b then w else Memory.read rest a

/-- Puts the entry `(a, w)` at its place in a list of rising addresses. -/
def Memory.put (a : Nat) (w : Word) : Memory → Memory
  | [] => [(a, w)]
  | (b, v) :: rest =>
    if a < b then (a, w) :: (b, v) :: rest
    else if a = b then (a, w) :: rest
    else (b, v) :: Memory.put a w rest

/-- Removes every entry of address `a`. -/
def Memory.erase (a : Nat) : Memory → Memory
  | [] => []
  | (b, v) :: rest => if a = b then Memory.erase a rest else (b, v) :: Memory.erase a rest

/-- `MemWrite(a, 1, w)` (20_memory.md R61); writing what an unlisted word reads as removes the entry. -/
def Memory.write (a : Nat) (w : Word) (m : Memory) : Memory :=
  if w = Memory.unlisted then Memory.erase a m else Memory.put a w m

/-- Writes consecutive words in increasing address order (20_memory.md R74). -/
def Memory.writeAll (a : Nat) : List Word → Memory → Memory
  | [], m => m
  | w :: ws, m => Memory.writeAll (a + 1) ws (Memory.write a w m)

/-- The words at `n` consecutive addresses from `a` on (41_io.md R163). -/
def Memory.readAll (m : Memory) (a : Nat) : Nat → List Word
  | 0 => []
  | n + 1 => Memory.read m a :: Memory.readAll m (a + 1) n

/-- The canonical form: rising addresses, and no entry equal to what an unlisted word reads as. -/
def Memory.wf (m : Memory) : Bool :=
  (m.map Prod.fst).Pairwise (· < ·) && m.all fun c => c.2 != Memory.unlisted

/-! ### Outcome records (10_state.md R37) -/

/-- Normal success, with the text of the entry the command appended (decision D12). -/
def OutcomeRecord.ok (output : Option Text) : OutcomeRecord :=
  { success := true, error := none, output := output, needsInput := false, inputPrompt := none, inputType := none }

/-- A READ-class instruction suspended. -/
def OutcomeRecord.waiting (kind : InputKind) : OutcomeRecord :=
  { success := true, error := none, output := none, needsInput := true, inputPrompt := some (Config.prompt kind),
    inputType := some kind }

/-- The command raised an error. -/
def OutcomeRecord.failed (e : ErrorLabel) : OutcomeRecord :=
  { success := false, error := some e, output := none, needsInput := false, inputPrompt := none, inputType := none }

/-! ### How a command ends -/

/-- `return Ok{output: out}` with nothing else written. -/
def State.succeed (out : Option Text) (s : State) : State := { s with reply := .outcome (.ok out) }

/-- `raise E`: the error goes to the host and nothing more is written (40_cycle.md R138, 60_exceptions.md R291: no
register saves anything, no flag changes, control goes nowhere). -/
def State.raise (e : ErrorLabel) (s : State) : State := { s with reply := .outcome (.failed e) }

/-- `Next(out)`: `IC <- IC + 1`, without wrap-around (40_cycle.md R136, 10_state.md R25). -/
def State.fallThrough (out : Option Text) (s : State) : State :=
  { s with ic := s.ic + 1, reply := .outcome (.ok out) }

/-- `Jump(t)`: `IC <- t` (40_cycle.md R136). -/
def State.jump (t : Nat) (s : State) : State := { s with ic := t, reply := .outcome (.ok none) }

/-- `Suspend`: the pending request is recorded and `IC` stays (40_cycle.md R136, 41_io.md R160, R162). -/
def State.suspend (kind : InputKind) (a : Nat) (s : State) : State :=
  { s with pend := some { kind := kind, target := a }, reply := .outcome (.waiting kind) }

/-! ### Register and log writes -/

/-- `ACC <- x`. -/
def State.setAcc (x : XNum) (s : State) : State := { s with acc := x }

/-- `memory[a] <- w`. -/
def State.setWord (a : Nat) (w : Word) (s : State) : State := { s with memory := Memory.write a w s.memory }

/-- `memory[a + j] <- ws[j]` for every `j`, in increasing address order (20_memory.md R74). -/
def State.setWords (a : Nat) (ws : List Word) (s : State) : State :=
  { s with memory := Memory.writeAll a ws s.memory }

/-- `Append(e)` (10_state.md R32). -/
def State.append (e : OutEntry) (s : State) : State := { s with out := s.out ++ [e] }

/-- The fetch and decode writes of a STEP: `RUN`, `IR`, `OPC`, `OPD` (40_cycle.md R132, R133, R134). -/
def State.latch (w : Word) (opc opd : Nat) (s : State) : State :=
  { s with run := true, ir := w, opc := opc, opd := opd }

/-- A successful PROVIDE_INPUT: `PEND <- None`, `IC <- IC + 1` (41_io.md R165). -/
def State.resume (s : State) : State := { s with pend := none, ic := s.ic + 1, reply := .outcome (.ok none) }

/-- The reset state of the same core; the host's later commands stay (70_reset_and_hazards.md R330). -/
def State.resetCore (r : Reply) (s : State) : State := { s with toCoreState := CoreState.reset, reply := r }

/-! ### Lifecycle -/

/-- The control states (10_state.md R40); the source's `Faulted` is not one of them (60_exceptions.md R291). -/
inductive ControlState where
  | ready
  | awaitingInput (p : Pending)
  | halted
  deriving DecidableEq, Repr

/-- The control state is a function of HLT and PEND (10_state.md R40). -/
def State.control (s : State) : ControlState :=
  if s.hlt then .halted
  else
    match s.pend with
    | none => .ready
    | some p => .awaitingInput p

end Sys2Proof.Machine
end

