-- ==== Sys2Proof/Machine/Flags.lean ====
section
/-! DEFINITION. The tests and the flag writes of the core. It has no condition codes (10_state.md R33): the branches test
ACC itself, and overflow is an error, not a flag. -/

namespace Sys2Proof

/-- `x = 0` (43_arithmetic.md R232, law 5); a special value may be a zero too (R223). -/
def XNum.isZero : XNum → Bool
  | .rat q => q.num = 0
  | .special k => Config.specialIsZero k

/-- `x < 0` (R232, law 5). -/
def XNum.isNeg : XNum → Bool
  | .rat q => q.num < 0
  | .special k => !Config.specialIsZero k && Config.specialIsNeg k

namespace Machine

/-- `|r| > 9999`, on the exact result (43_arithmetic.md R220). -/
def overflows (r : Int) : Bool := Config.wmax < r.natAbs

/-- `alu_commit(r)` (43_arithmetic.md R220), then the fall through: the result is stored only when it fits. -/
def aluCommit (r : Int) (s : State) : Result :=
  if overflows r then .next (s.raise .eOverflow) else .next ((s.setAcc (.ofInt r)).fallThrough none)

/-- `FM <- true` (10_state.md R30). -/
def State.setFloatMode (s : State) : State := { s with fm := true }

/-- `HLT <- true ; RUN <- false` (10_state.md R29, 44_control.md R263). -/
def State.setHalted (s : State) : State := { s with hlt := true, run := false }

end Machine
end Sys2Proof
end

