-- ==== Sys2Proof/Machine/Operands.lean ====
section
/-! DEFINITION. The operand forms. The one addressing mode is direct absolute (30_encoding.md R93): the operand is the
address of a word, a branch target, or ignored. -/

namespace Sys2Proof.Machine

/-- A row of the EXTENDED table only: in BASIC its opcode is not in the table and raises `E_OPCODE` (30_encoding.md R95,
R96). -/
def extendedOnly (s : State) (k : Result) : Result :=
  match s.variant with
  | .basic => .next (s.raise .eOpcode)
  | .extended => k

/-- `if not (0 <= OPD < N): raise E_OPERAND` (20_memory.md R61, 60_exceptions.md R283). -/
def withAddress (a : Nat) (s : State) (k : Result) : Result :=
  if a < s.variant.words then k else .next (s.raise .eOperand)

/-- The operand is the address of a word that is read. -/
def withWord (a : Nat) (s : State) (k : Word → Result) : Result :=
  withAddress a s (k (Memory.read s.memory a))

/-- The operand is the address of a number that is read; a `Str` is refused (43_arithmetic.md R233). -/
def withNumber (a : Nat) (s : State) (k : XNum → Result) : Result :=
  withWord a s fun w =>
    match w with
    | .num x => k x
    | .str _ => .refused .stringOperand

/-- Like `withNumber`, and the number is a divisor: zero raises `E_DIVZERO` (60_exceptions.md R286). -/
def withDivisor (a : Nat) (s : State) (k : XNum → Result) : Result :=
  withNumber a s fun m => if m.isZero then .next (s.raise .eDivZero) else k m

end Sys2Proof.Machine
end

