-- ==== Sys2Proof/Machine/Alu.lean ====
section
/-! DEFINITION. The operations of XNUM (43_arithmetic.md R231, R232) and the arithmetic step of both variants (R220).
What the laws of R232 fix is computed; everything else is an opaque constant of Config (log entries 4 and 5). -/

namespace Sys2Proof

/-- Whether a rational is a member of XNUM: every integer is, and the rest is the parameter's (R232). -/
def isMember (q : Rat) : Bool := q.den = 1 || Config.hasFraction q

/-- An operation with an exact rational result: that result where it is a member of XNUM, and otherwise the parameter's
(R232 law 2 for `div`; for the others see log entry 5). -/
def XNum.exactly (exact : Rat → Rat → Rat) (other : XNum → XNum → XNum) : XNum → XNum → XNum
  | .rat p, .rat q => if isMember (exact p q) then .rat (exact p q) else other (.rat p) (.rat q)
  | x, y => other x y

/-- An operation that the laws fix on integers, and another one elsewhere. -/
def XNum.onInts (ints : Int → Int → XNum) (other : XNum → XNum → XNum) (x y : XNum) : XNum :=
  match x.exactInt?, y.exactInt? with
  | some a, some b => ints a b
  | _, _ => other x y

/-- `add` (R232): exact on integers (law 1). -/
def XNum.add : XNum → XNum → XNum := .onInts (fun a b => .ofInt (a + b)) (.exactly (· + ·) Config.xnumAdd)

/-- `sub` (R232): exact on integers (law 1). -/
def XNum.sub : XNum → XNum → XNum := .onInts (fun a b => .ofInt (a - b)) (.exactly (· - ·) Config.xnumSub)

/-- `mul` (R232): exact on integers (law 1). -/
def XNum.mul : XNum → XNum → XNum := .onInts (fun a b => .ofInt (a * b)) (.exactly (· * ·) Config.xnumMul)

/-- `floor` (R232, 00_scope.md R6): the greatest integer not above a rational. -/
def XNum.floor : XNum → XNum
  | .rat q => .ofInt q.floor
  | .special k => Config.xnumFloor k

/-- `n` is the floor of `x`, and the order tests say of `x` what that implies: `x < 0` exactly if `n < 0`, and `x = 0`
only if `n = 0` (R232, laws 3 and 5). On rationals the order tests follow from the floor. -/
def XNum.hasFloor (n : Int) (x : XNum) : Bool :=
  x.floor = .ofInt n && x.isNeg = decide (n < 0) && (!x.isZero || n = 0)

/-- `div` of two integers: the exact quotient where it is a member (law 2), else the parameter's value, which law 3 holds
to `floor(div(a, b)) = fdiv(a, b)`; a value that breaks the law is replaced by the integer `fdiv(a, b)`, which obeys it,
so that what is left is every function that obeys the laws (log entry 4). -/
def divInts (a b : Int) : XNum :=
  if isMember ((a : Rat) / b) then .rat ((a : Rat) / b)
  else if (Config.xnumDiv (.ofInt a) (.ofInt b)).hasFloor (Int.fdiv a b) then Config.xnumDiv (.ofInt a) (.ofInt b)
  else .ofInt (Int.fdiv a b)

/-- `div` (R232): "the exact quotient `a/b` whenever that quotient is a member of `XNUM`" (law 2); on integers with the
floor that law 3 gives it. -/
def XNum.div : XNum → XNum → XNum := .onInts divInts (.exactly (· / ·) Config.xnumDiv)

/-- `floor(div(x, y))` (43_arithmetic.md R223): on integers it is `fdiv` (R231, R232 law 3); `floorDiv_eq_floor_div`
(Laws/Arithmetic.lean) says that it is the floor of `div` for every divisor but 0. -/
def XNum.floorDiv : XNum → XNum → XNum := .onInts (fun a b => .ofInt (Int.fdiv a b)) fun x y => (x.div y).floor

/-- `rem` (R225): on integers the truncated remainder, of the dividend's sign (decision D21; log entry 6). -/
def XNum.rem : XNum → XNum → XNum := .onInts (fun a b => .ofInt (Int.tmod a b)) Config.xnumRem

/-- `pow` (R226): exact for an integer base and an integer exponent at least 1, and 1 for `a ^ 0` with `a ≠ 0`. -/
def XNum.pow : XNum → XNum → XNum :=
  .onInts
    (fun a b => if 1 ≤ b ∨ (b = 0 ∧ a ≠ 0) then .ofInt (a ^ b.toNat) else Config.xnumPow (.ofInt a) (.ofInt b))
    Config.xnumPow

namespace Machine

/-- The arithmetic step once the right operand is read (R220 to R224): in BASIC the exact integer result through
`alu_commit`, in EXTENDED the XNUM result, without a range check. -/
def arithmetic (basic : Int → Int → Int) (extended : XNum → XNum → XNum) (s : State) (m : XNum) : Result :=
  match s.variant with
  | .basic =>
    match s.acc.exactInt?, m.exactInt? with
    | some a, some b => aluCommit (basic a b) s
    | _, _ => .fault .notABasicWord
  | .extended => .next ((s.setAcc (extended s.acc m)).fallThrough none)

/-- An EXTENDED arithmetic step: `ACC <- op(ACC, m)` (R225, R226). -/
def arithmeticX (op : XNum → XNum → XNum) (s : State) (m : XNum) : Result :=
  .next ((s.setAcc (op s.acc m)).fallThrough none)

/-- An EXTENDED float step: `ACC <- op(ACC, m) ; FM <- true` (R227 to R230). -/
def arithmeticFloat (op : XNum → XNum → XNum) (s : State) (m : XNum) : Result :=
  .next ((s.setAcc (op s.acc m)).setFloatMode.fallThrough none)

end Machine
end Sys2Proof
end

