-- ==== Sys2Proof/Machine/Arithmetic.lean ====
section
/-! DEFINITION. The arithmetic instructions (43_arithmetic.md R221 to R230): the left operand is ACC, the right operand
the memory word at the operand, the result goes to ACC. -/

namespace Sys2Proof.Machine

/-- ADD (opcode 30): R221. -/
def execAdd (a : Nat) (s : State) : Result := withNumber a s (arithmetic (· + ·) XNum.add s)

/-- SUBTRACT (opcode 31): R222. -/
def execSubtract (a : Nat) (s : State) : Result := withNumber a s (arithmetic (· - ·) XNum.sub s)

/-- DIVIDE (opcode 32): R223, floor division (R231). -/
def execDivide (a : Nat) (s : State) : Result := withDivisor a s (arithmetic Int.fdiv XNum.floorDiv s)

/-- MULTIPLY (opcode 33): R224. -/
def execMultiply (a : Nat) (s : State) : Result := withNumber a s (arithmetic (· * ·) XNum.mul s)

/-- MODULO (opcode 34): R225. -/
def execModulo (a : Nat) (s : State) : Result := extendedOnly s (withDivisor a s (arithmeticX XNum.rem s))

/-- POWER (opcode 35): R226. -/
def execPower (a : Nat) (s : State) : Result := extendedOnly s (withNumber a s (arithmeticX XNum.pow s))

/-- ADD_FLOAT (opcode 52): R227. -/
def execAddFloat (a : Nat) (s : State) : Result := extendedOnly s (withNumber a s (arithmeticFloat XNum.add s))

/-- SUBTRACT_FLOAT (opcode 53): R228. -/
def execSubtractFloat (a : Nat) (s : State) : Result := extendedOnly s (withNumber a s (arithmeticFloat XNum.sub s))

/-- DIVIDE_FLOAT (opcode 54): R229, true division. -/
def execDivideFloat (a : Nat) (s : State) : Result := extendedOnly s (withDivisor a s (arithmeticFloat XNum.div s))

/-- MULTIPLY_FLOAT (opcode 55): R230. -/
def execMultiplyFloat (a : Nat) (s : State) : Result := extendedOnly s (withNumber a s (arithmeticFloat XNum.mul s))

end Sys2Proof.Machine
end

