-- ==== Sys2Proof/Machine/Format.lean ====
section
/-! DEFINITION. The text of output entries (41_io.md R169, R170; 10_state.md R32). -/

namespace Sys2Proof

/-- The character of a decimal digit 0..9. -/
def digitChar (d : Nat) : Char := Char.ofNat (48 + d)

/-- The decimal digits of a natural number, without leading zeros; 0 has the one digit `0`. -/
def decimalDigits (n : Nat) : Text := Nat.toDigits 10 n

/-- The four-digit magnitude `d3 d2 d1 d0` (R169). -/
def fourDigits (n : Nat) : Text := [digitChar (digit 3 n), digitChar (digit 2 n), digitChar (digit 1 n), digitChar (digit 0 n)]

/-- `fmt` of an integer: the sign, `+` for zero (decision D13), and the magnitude in four digits, or in all its digits
when there are more (R169, R170, decision D27). -/
def fmtInt (z : Int) : Text :=
  (if z < 0 then '-' else '+') :: (if z.natAbs ≤ Config.wmax then fourDigits z.natAbs else decimalDigits z.natAbs)

/-- The magnitude of a rational in hundredths, rounded down or up where it is no whole number of them: the rounding is
the parameter FMT_X (R170; log entry 11). -/
def hundredths (q : Rat) : Nat :=
  let n := q.num.natAbs * 100
  if n % q.den = 0 then n / q.den else n / q.den + (if Config.fmtRoundsUp q then 1 else 0)

/-- What stands before the digits of a numeral in float mode: spaces, the sign prefix, zeros (FMT_X; R170). -/
def fmtLead (q : Rat) : Text :=
  List.replicate (Config.fmtPadding q).1 ' ' ++
    (match Config.fmtSign q with
     | none => []
     | some neg => [if neg then '-' else '+']) ++
    List.replicate (Config.fmtPadding q).2 '0'

/-- A decimal numeral of `n` hundredths, with exactly two digits after the point (R170). -/
def twoPlaces (n : Nat) : Text := decimalDigits (n / 100) ++ ['.', digitChar (digit 1 n), digitChar (digit 0 n)]

/-- `fmt(x, fm)` (R169, R170). A non-integral number in float mode is a numeral of it with exactly two digits after the
point, whose sign, padding and rounding are the parameter FMT_X (log entry 11). -/
def XNum.fmt (x : XNum) (fm : Bool) : Text :=
  match x.int? with
  | some z => fmtInt z
  | none =>
    match x with
    | .rat q =>
      if fm then fmtLead q ++ twoPlaces (hundredths q) else Config.fmtX x fm
    | .special _ => Config.fmtX x fm

namespace Machine

/-- The text of an entry (10_state.md R32). -/
def OutEntry.text : OutEntry → Text
  | .outNum v fm => v.fmt fm
  | .outStr t => t
  | .outNewline => ['\n']
  | .outHalt => Config.haltMsg

/-- The WRITE-class projection of the log: the log without the `OutHalt` entries (R32). -/
def writeClass (out : List OutEntry) : List OutEntry := out.filter (· != .outHalt)

/-- `Append(e) ; continue Next(text of e)` of the WRITE-class instructions (41_io.md R161, R163, R164). -/
def State.writeEntry (e : OutEntry) (s : State) : State := (s.append e).fallThrough (some e.text)

end Machine
end Sys2Proof
end

