-- ==== Sys2Proof/Machine/Control.lean ====
section
/-! DEFINITION. Control transfer and halt (44_control.md R260 to R263). -/

namespace Sys2Proof.Machine

/-- BRANCH (opcode 40): R260; the target is not checked here. -/
def execBranch (t : Nat) (s : State) : Result := .next (s.jump t)

/-- BRANCHNEG (opcode 41): R261. -/
def execBranchneg (t : Nat) (s : State) : Result :=
  if s.acc.isNeg then .next (s.jump t) else .next (s.fallThrough none)

/-- BRANCHZERO (opcode 42): R262. -/
def execBranchzero (t : Nat) (s : State) : Result :=
  if s.acc.isZero then .next (s.jump t) else .next (s.fallThrough none)

/-- HALT (opcode 43): R263; the operand is ignored and `IC` stays. -/
def execHalt (_a : Nat) (s : State) : Result :=
  .next ((s.setHalted.append .outHalt).succeed (some OutEntry.outHalt.text))

end Sys2Proof.Machine
end

