-- ==== Sys2Proof/Machine/Strings.lean ====
section
/-! DEFINITION. The packing of strings into words (41_io.md R167, R168). -/

namespace Sys2Proof.Machine

/-- `ceil(L/2)`, the number of body words of a string of length `L`. -/
def bodyLength (len : Nat) : Nat := (len + 1) / 2

/-- The pairs `hi*100 + lo`; an odd length pads the last low part with 0 (R167, decision D24). -/
def packPairs : List Nat → List Nat
  | [] => []
  | [hi] => [hi * 100]
  | hi :: lo :: rest => (hi * 100 + lo) :: packPairs rest

/-- Every character has an ASCII code. -/
def isAscii (t : Text) : Bool := t.all fun c => c.toNat ≤ 127

/-- `pack(s)`: `L*100`, then the pairs; a character outside ASCII is refused (R167). -/
def pack? (t : Text) : Option (List Nat) :=
  if isAscii t then some (t.length * 100 :: packPairs (t.map Char.toNat)) else none

/-- The header's `L`, when the number is `L*100` for an integer `L >= 0` (R163). -/
def headerLength? (x : XNum) : Option Nat :=
  match x.int? with
  | some z => if 0 ≤ z ∧ z % 100 = 0 then some (z / 100).toNat else none
  | none => none

/-- A body word's value: a non-negative integer number (R168). -/
def bodyWord? : Word → Option Nat
  | .num x =>
    match x.int? with
    | some z => if 0 ≤ z then some z.toNat else none
    | none => none
  | .str _ => none

/-- The values of body words; `none` if one is no non-negative integer number. -/
def bodyWords? : List Word → Option (List Nat)
  | [] => some []
  | w :: ws =>
    match bodyWord? w, bodyWords? ws with
    | some n, some ns => some (n :: ns)
    | _, _ => none

/-- The codes `hi_0, lo_0, hi_1, lo_1, …` of body words (R168). -/
def unpackCodes : List Nat → List Nat
  | [] => []
  | n :: ns => n / 100 :: n % 100 :: unpackCodes ns

/-- `unpack(L, ws)`: the first `L` characters; a code above 127 is refused (R168). -/
def unpack? (len : Nat) (ws : List Nat) : Option Text :=
  let codes := (unpackCodes ws).take len
  if codes.all (· ≤ 127) then some (codes.map Char.ofNat) else none

end Sys2Proof.Machine
end

