-- ==== Sys2Proof/Machine/Io.lean ====
section
/-! DEFINITION. The input/output instructions (41_io.md R160 to R164). -/

namespace Sys2Proof.Machine

/-- READ (opcode 10): R160. -/
def execRead (a : Nat) (s : State) : Result := withAddress a s (.next (s.suspend .number a))

/-- WRITE (opcode 11): R161. -/
def execWrite (a : Nat) (s : State) : Result :=
  withNumber a s fun x => .next (s.writeEntry (.outNum x s.fm))

/-- READ_STRING (opcode 12): R162. -/
def execReadString (a : Nat) (s : State) : Result :=
  extendedOnly s (withAddress a s (.next (s.suspend .string a)))

/-- The packed string whose header at `a` gives the length `len` (R163): a body that runs past the last address raises
`E_OPERAND` (decision D25). -/
def writePacked (a len : Nat) (s : State) : Result :=
  if s.variant.words - 1 < a + bodyLength len then .next (s.raise .eOperand)
  else
    match bodyWords? (Memory.readAll s.memory (a + 1) (bodyLength len)) with
    | none => .refused .malformedBody
    | some ns =>
      match unpack? len ns with
      | none => .refused .outsideAscii
      | some t => .next (s.writeEntry (.outStr t))

/-- WRITE_STRING (opcode 13): R163. -/
def execWriteString (a : Nat) (s : State) : Result :=
  extendedOnly s <| withWord a s fun h =>
    match h with
    | .str t => .next (s.writeEntry (.outStr t))
    | .num x =>
      match headerLength? x with
      | none => .refused .malformedHeader
      | some len => writePacked a len s

/-- WRITE_NEWLINE (opcode 14): R164; the operand is ignored. -/
def execWriteNewline (_a : Nat) (s : State) : Result := extendedOnly s (.next (s.writeEntry .outNewline))

end Sys2Proof.Machine
end

