-- ==== Sys2Proof/Machine/LoadStore.lean ====
section
/-! DEFINITION. The load and store instructions (42_load_store.md R200 to R203). -/

namespace Sys2Proof.Machine

/-- LOAD (opcode 20): R200. -/
def execLoad (a : Nat) (s : State) : Result :=
  withNumber a s fun x => .next ((s.setAcc x).fallThrough none)

/-- STORE (opcode 21): R201. -/
def execStore (a : Nat) (s : State) : Result :=
  withAddress a s (.next ((s.setWord a (.num s.acc)).fallThrough none))

/-- LOAD_FLOAT (opcode 50): R202. -/
def execLoadFloat (a : Nat) (s : State) : Result :=
  extendedOnly s <| withNumber a s fun x => .next ((s.setAcc x).setFloatMode.fallThrough none)

/-- STORE_FLOAT (opcode 51): R203. -/
def execStoreFloat (a : Nat) (s : State) : Result :=
  extendedOnly s <| withAddress a s (.next ((s.setWord a (.num s.acc)).setFloatMode.fallThrough none))

end Sys2Proof.Machine
end

