-- ==== Sys2Proof/Machine/Dispatch.lean ====
section
/-! DEFINITION. The dispatch of 40_cycle.md R135: one arm per row of the opcode table. -/

namespace Sys2Proof.Machine

/-- `execute(OPC, OPD)`: the instruction's rule, with the continuation of R136 and the outcome of R137. -/
def exec (i : Instr) (s : State) : Host.Outcome State Fault Refusal :=
  match i with
  | .read a => Sys2Proof.Machine.execRead a s
  | .write a => Sys2Proof.Machine.execWrite a s
  | .readString a => Sys2Proof.Machine.execReadString a s
  | .writeString a => Sys2Proof.Machine.execWriteString a s
  | .writeNewline a => Sys2Proof.Machine.execWriteNewline a s
  | .load a => Sys2Proof.Machine.execLoad a s
  | .store a => Sys2Proof.Machine.execStore a s
  | .add a => Sys2Proof.Machine.execAdd a s
  | .subtract a => Sys2Proof.Machine.execSubtract a s
  | .divide a => Sys2Proof.Machine.execDivide a s
  | .multiply a => Sys2Proof.Machine.execMultiply a s
  | .modulo a => Sys2Proof.Machine.execModulo a s
  | .power a => Sys2Proof.Machine.execPower a s
  | .branch a => Sys2Proof.Machine.execBranch a s
  | .branchneg a => Sys2Proof.Machine.execBranchneg a s
  | .branchzero a => Sys2Proof.Machine.execBranchzero a s
  | .halt a => Sys2Proof.Machine.execHalt a s
  | .loadFloat a => Sys2Proof.Machine.execLoadFloat a s
  | .storeFloat a => Sys2Proof.Machine.execStoreFloat a s
  | .addFloat a => Sys2Proof.Machine.execAddFloat a s
  | .subtractFloat a => Sys2Proof.Machine.execSubtractFloat a s
  | .divideFloat a => Sys2Proof.Machine.execDivideFloat a s
  | .multiplyFloat a => Sys2Proof.Machine.execMultiplyFloat a s

end Sys2Proof.Machine
end

