-- ==== Sys2Proof/Machine/Cycle.lean ====
section
/-! DEFINITION. The STEP command: no-op test, fetch, decode, dispatch (40_cycle.md R130 to R141). -/

namespace Sys2Proof.Machine

/-- Decode and dispatch of the fetched word `w` (R133 to R135). A word with no integer value leaves OPC and OPD
(30_encoding.md R98 (c)); an opcode without a row raises `E_OPCODE` after they are written (R134, R135). -/
def executeWord (w : Word) (s : State) : Result :=
  match w.int? with
  | none => .next ((s.latch w s.opc s.opd).raise .eOpcode)
  | some z =>
    let f := splitInt z
    match instrOf f.1 f.2 with
    | none => .next ((s.latch w f.1 f.2).raise .eOpcode)
    | some i => exec i (s.latch w f.1 f.2)

/-- The fetch (R133): a counter outside `[0, N)` raises `E_COUNTER`, and RUN is all that changes. -/
def fetchAndExecute (s : State) : Result :=
  if s.ic < s.variant.words then executeWord (Memory.read s.memory s.ic) s
  else .next ({ s with run := true }.raise .eCounter)

/-- The STEP command (R130): a no-op that succeeds unless the control state is Ready (R131). -/
def stepCommand (s : State) : Result :=
  if s.hlt || s.pend.isSome then .next (s.succeed none) else fetchAndExecute s

end Sys2Proof.Machine
end

