-- ==== Sys2Proof/Machine/ProgramText.lean ====
section
/-! DEFINITION. The program text format (30_encoding.md R102 to R109): surrounding software by the spec's scope
(00_scope.md R4), given because LOAD's error `L_PARSE` is about it (log entry 12). -/

namespace Sys2Proof.Machine

/-- What is trimmed at both ends of a line: spaces and tabs (decision D40). -/
def isBlankChar (c : Char) : Bool := c = ' ' || c = '\t'

/-- The class `\s` of the line pattern of R104, in ASCII: space, tab, CR, vertical tab, form feed; a line holds no line
feed (PRESUMED: the usual meaning of the notation; log entry 12). -/
def isPatternSpace (c : Char) : Bool := c = ' ' || c = '\t' || c = '\r' || c.toNat = 11 || c.toNat = 12

/-- Removes each CR that precedes a line feed, where it is white space (decision D40). -/
def dropLineEndCR : Text → Text
  | [] => []
  | c :: cs => if c = '\r' && cs.head? = some '\n' then dropLineEndCR cs else c :: dropLineEndCR cs

/-- An ASCII decimal digit. -/
def isDecimal (c : Char) : Bool := '0' ≤ c && c ≤ '9'

/-- The lines of a text; lines end at LF (decision D40). -/
def splitLines : Text → List Text
  | [] => [[]]
  | c :: cs =>
    if c = '\n' then [] :: splitLines cs
    else
      match splitLines cs with
      | [] => [[c]]
      | l :: ls => (c :: l) :: ls

/-- Removes a comment, `//` to the end of the line (R102). -/
def stripComment : Text → Text
  | [] => []
  | c :: cs => if c = '/' && cs.head? = some '/' then [] else c :: stripComment cs

/-- Removes leading and trailing spaces and tabs (R102, decision D40). -/
def trim (t : Text) : Text := ((t.dropWhile isBlankChar).reverse.dropWhile isBlankChar).reverse

/-- The number spelled by decimal digits. -/
def decimalNat (ds : Text) : Nat := ds.foldl (fun n c => n * 10 + (c.toNat - 48)) 0

/-- A non-empty run of decimal digits, `\d+`. -/
def isDecimalRun (t : Text) : Bool := !t.isEmpty && t.all isDecimal

/-- A decimal value token `[+-]?\d+` (R107). -/
def decimal? : Text → Option Int
  | '+' :: ds => if isDecimalRun ds then some (decimalNat ds) else none
  | '-' :: ds => if isDecimalRun ds then some (-(decimalNat ds : Int)) else none
  | ds => if isDecimalRun ds then some (decimalNat ds) else none

/-- What a line is, once comment and white space are gone. -/
inductive Line where
  | blank
  | sequential (z : Int)
  | addressed (a : Nat) (v : ImageValue)
  | bad
  deriving DecidableEq, Repr

/-- The value of an addressed line (R104, R106): a decimal integer, or in EXTENDED a `0x` literal. -/
def lineValue? (v : Variant) (t : Text) : Option ImageValue :=
  match decimal? t with
  | some z => some (.dec z)
  | none =>
    match v with
    | .basic => none
    | .extended => (hexLiteral? t).map fun _ => .hex t

/-- The addressed form `\d{1,3}\s*\?\s*value` (R104). -/
def addressedLine? (v : Variant) (t : Text) : Option (Nat × ImageValue) :=
  let ds := t.takeWhile isDecimal
  match (t.dropWhile isDecimal).dropWhile isPatternSpace with
  | '?' :: rest =>
    if 1 ≤ ds.length ∧ ds.length ≤ 3 then
      (lineValue? v (rest.dropWhile isPatternSpace)).map fun x => (decimalNat ds, x)
    else none
  | _ => none

/-- Whether the variant accepts sequential lines (R103; log entry 13). -/
def acceptsSequential : Variant → Bool
  | .basic => true
  | .extended => Config.extendedSequential

/-- The termination sentinel (R105). -/
def sentinel : Int := -99999

/-- Whether a bare integer is a line of the variant: a sequential line where those are accepted, and else at most the
sentinel (R103, R105; log entry 13). -/
def acceptsBare (v : Variant) (z : Int) : Bool :=
  acceptsSequential v || (z = sentinel && Config.extendedBareSentinel)

/-- Reads one line (R102 to R105). -/
def readLine (v : Variant) (raw : Text) : Line :=
  let t := trim (stripComment raw)
  if t.isEmpty then .blank
  else
    match decimal? t with
    | some z => if acceptsBare v z then .sequential z else .bad
    | none =>
      match addressedLine? v t with
      | some (a, x) => .addressed a x
      | none => .bad

/-- The image of the lines from line `line` on, the next sequential address being `at_`; an unparseable line is named by
its number, counted from 0 (R103, R105, R108, R109, decision D28). -/
def parseLines (v : Variant) (at_ line : Nat) : List Text → Except Nat Image
  | [] => .ok []
  | l :: ls =>
    match readLine v l with
    | .blank => parseLines v at_ (line + 1) ls
    | .bad => .error line
    | .sequential z =>
      if z = sentinel then .ok [] else (parseLines v (at_ + 1) (line + 1) ls).map (((at_ : Int), .dec z) :: ·)
    | .addressed a x =>
      if x = .dec sentinel then .ok [] else (parseLines v at_ (line + 1) ls).map (((a : Int), x) :: ·)

/-- The program image of a text, or the number of the offending line (R108, R109). -/
def parseText (v : Variant) (t : Text) : Except Nat Image := parseLines v 0 0 (splitLines (dropLineEndCR t))

end Sys2Proof.Machine
end

