-- ==== Sys2Proof/Machine/Commands.lean ====
section
/-! DEFINITION. The other commands of the host (10_state.md R36): PROVIDE_INPUT (41_io.md R165, R166), RESET and LOAD
(70_reset_and_hazards.md R330 to R336), SNAPSHOT (60_exceptions.md R299). -/

namespace Sys2Proof.Machine

/-! ### PROVIDE_INPUT -/

/-- An integer in [-9999, 9999], the BASIC word domain (10_state.md R22). -/
def inBasicRange (z : Int) : Bool := z.natAbs ≤ Config.wmax

/-- `valid_number(v)` (R166): in BASIC an integer in range, in EXTENDED every number. -/
def validNumber (v : Variant) (x : XNum) : Bool :=
  match v with
  | .basic =>
    match x.exactInt? with
    | some z => inBasicRange z
    | none => false
  | .extended => true

/-- A number is provided for a `number` request with target `t` (R165). -/
def provideNumber (x : XNum) (t : Nat) (s : State) : Result :=
  if validNumber s.variant x then
    if t < s.variant.words then .next (s.setWord t (.num x)).resume else .fault .addressOutsideMemory
  else .next (s.raise .iBadValue)

/-- A string is provided for a `string` request with target `t` (R165): it is packed, checked whole against the end of
memory (decision D25), and written. -/
def provideString (str : Text) (t : Nat) (s : State) : Result :=
  match pack? str with
  | none => .refused .outsideAscii
  | some ws =>
    if s.variant.words - 1 < t + bodyLength str.length then .next (s.raise .iBadValue)
    else .next (s.setWords t (ws.map fun (n : Nat) => Word.ofInt n)).resume

/-- `PROVIDE_INPUT(v)` (R165). -/
def provideInput (v : InputValue) (s : State) : Result :=
  match s.pend with
  | none => .next (s.raise .iNotWaiting)
  | some p =>
    match p.kind, v with
    | .number, .number x => provideNumber x p.target s
    | .number, .text _ => .next (s.raise .iBadValue)
    | .string, .text str => provideString str p.target s
    | .string, .number _ => .next (s.raise .iBadValue)

/-! ### RESET and LOAD -/

/-- The word an image value is installed as (70_reset_and_hazards.md R334). -/
def ImageValue.word : ImageValue → Word
  | .dec z => .ofInt z
  | .hex t => .str t

/-- What is wrong with an entry of an image (R332 to R334); a value that no program text of the variant yields is
`L_PARSE` (30_encoding.md R106, R108; log entry 14). -/
def entryError? (v : Variant) (e : Int × ImageValue) : Option ErrorLabel :=
  if e.1 < 0 ∨ (v.words : Int) ≤ e.1 then some .lAddr
  else
    match v, e.2 with
    | .basic, .dec z => if inBasicRange z then none else some .lWord
    | .basic, .hex _ => some .lParse
    | .extended, .dec _ => none
    | .extended, .hex t => if (hexLiteral? t).isSome then none else some .lParse

/-- The first failing entry in image order, with its position (60_exceptions.md R290). -/
def firstError? (v : Variant) (position : Nat) : Image → Option (ErrorLabel × Nat)
  | [] => none
  | e :: rest =>
    match entryError? v e with
    | some l => some (l, position)
    | none => firstError? v (position + 1) rest

/-- Installs the entries in order; a later entry replaces an earlier one (R332, R335, decision D29). -/
def install : Image → Memory → Memory
  | [], m => m
  | e :: rest, m => install rest (Memory.write e.1.toNat e.2.word m)

/-- `LOAD(image)` (R332): reset, validate everything, then install. -/
def loadImage (image : Image) (s : State) : State :=
  match firstError? s.variant 0 image with
  | some (e, position) => s.resetCore (.loadFailed e position)
  | none => { s.resetCore .loaded with memory := install image CoreState.reset.memory }

/-- `LOAD` of a program text: "a text that fails to parse is a failed LOAD with L_PARSE" (R332). -/
def loadText (t : Text) (s : State) : State :=
  match parseText s.variant t with
  | .error line => s.resetCore (.loadFailed .lParse line)
  | .ok image => loadImage image s

/-! ### The five commands -/

/-- One command, run to completion (10_state.md R36). -/
def runCommand (c : Command) (s : State) : Result :=
  match c with
  | .reset => .next (s.resetCore .completed)
  | .load image => .next (loadImage image s)
  | .loadText t => .next (loadText t s)
  | .step => stepCommand s
  | .provideInput v => provideInput v s
  | .snapshot => .next { s with reply := .snapshot s.toCoreState }

/-- The host's next command: the oldest in the queue, and STEP when the queue is empty (log entry 2). -/
def nextCommand (s : State) : Command × State :=
  match s.commands with
  | [] => (.step, s)
  | c :: cs => (c, { s with commands := cs })

/-- The state whose next STEP fetches and runs the word `w`: Ready, the counter inside memory, no other command first,
and `w` at the counter (log entry 16). -/
def State.placeWord (w : Word) (s : State) : State :=
  let ic := if s.ic < s.variant.words then s.ic else 0
  { s with memory := Memory.write ic w s.memory, ic := ic, hlt := false, pend := none, commands := [] }

end Sys2Proof.Machine
end

