-- ==== Sys2Proof/Machine/Step.lean ====
section
/-! DEFINITION. One step of the machine: the host's next command, run to completion (10_state.md R36, 20_memory.md R69). -/

namespace Sys2Proof.Machine

/-- One step. -/
def step (s : State) : Host.Outcome State Fault Refusal :=
  runCommand (nextCommand s).1 (nextCommand s).2

/-- The state whose next step runs the table word `w` (log entry 16). A pattern that denotes no word is placed as the
word 0, which is no instruction. -/
def State.withFetchWord (s : State) (nbits w : Nat) : State :=
  s.placeWord (.ofInt ((tableWord? nbits w).getD 0))

end Sys2Proof.Machine
end

