-- ==== Sys2Proof/Safety.lean ====
section
/-! DEFINITION. The terms claims are stated in: the states a core can be in (10_state.md R35), when a STEP executes an
instruction (40_cycle.md R131), and the tables of the spec that say which instruction does what. -/

namespace Sys2Proof

/-- The opcodes of the variant's dispatch table (00_scope.md R5, 30_encoding.md R94, R95). -/
def Variant.opcodes : Variant → List Nat
  | .basic => [10, 11, 20, 21, 30, 31, 32, 33, 40, 41, 42, 43]
  | .extended => [10, 11, 12, 13, 14, 20, 21, 30, 31, 32, 33, 34, 35, 40, 41, 42, 43, 50, 51, 52, 53, 54, 55]

/-- The float instructions, opcodes 50 to 55 (10_state.md R30). -/
def Instr.isFloat (i : Instr) : Bool := 50 ≤ i.opcode && i.opcode ≤ 55

/-- The instructions that write ACC (10_state.md R24). -/
def Instr.writesAcc (i : Instr) : Bool := i.opcode ∈ [20, 30, 31, 32, 33, 34, 35, 50, 52, 53, 54, 55]

/-- The instructions that need a number in the memory word they read (43_arithmetic.md R233). -/
def Instr.readsNumber (i : Instr) : Bool := i.opcode ∈ [11, 20, 30, 31, 32, 33, 34, 35, 50, 52, 53, 54, 55]

/-- The instructions whose memory operand is a divisor (60_exceptions.md R286). -/
def Instr.divides (i : Instr) : Bool := i.opcode ∈ [32, 34, 54]

/-- The instructions that use the operand as the address of a memory word (30_encoding.md R93). -/
def Instr.usesAddress (i : Instr) : Bool :=
  i.opcode ∈ [10, 11, 12, 13, 20, 21, 30, 31, 32, 33, 34, 35, 50, 51, 52, 53, 54, 55]

/-- Whether the instruction transfers control to its operand (44_control.md R260 to R262). -/
def Instr.jumps (i : Instr) (acc : XNum) : Bool :=
  match i with
  | .branch _ => true
  | .branchneg _ => acc.isNeg
  | .branchzero _ => acc.isZero
  | .read _ | .write _ | .readString _ | .writeString _ | .writeNewline _ | .load _ | .store _ | .add _ | .subtract _
  | .divide _ | .multiply _ | .modulo _ | .power _ | .halt _ | .loadFloat _ | .storeFloat _ | .addFloat _
  | .subtractFloat _ | .divideFloat _ | .multiplyFloat _ => false

namespace Machine

/-- A number of the variant's accumulator domain (10_state.md R24). -/
def numberOk (v : Variant) (x : XNum) : Bool :=
  match v with
  | .basic =>
    match x.exactInt? with
    | some z => inBasicRange z
    | none => false
  | .extended => true

/-- A word of the variant (10_state.md R22, R23): in EXTENDED a `Str` is a loaded `0x` literal. -/
def wordOk (v : Variant) (w : Word) : Bool :=
  match w with
  | .num x => numberOk v x
  | .str t => v = .extended && (hexLiteral? t).isSome

/-- The instruction that suspended with a request (10_state.md R31). -/
def Pending.instr (p : Pending) : Instr :=
  match p.kind with
  | .number => .read p.target
  | .string => .readString p.target

/-- The invariants of 10_state.md R35 (1 to 5), with the canonical form of the memory list and what R22 to R30 say of
single registers. -/
structure Inv (s : State) : Prop where
  /-- the memory list is in canonical form -/
  memory_wf : Memory.wf s.memory = true
  /-- only addresses in `[0, N)` are listed -/
  memory_inside : ∀ c ∈ s.memory, c.1 < s.variant.words
  /-- every word is a word of the variant (R35.1) -/
  memory_words : ∀ c ∈ s.memory, wordOk s.variant c.2 = true
  /-- ACC is in its domain (R35.1) -/
  acc_ok : numberOk s.variant s.acc = true
  /-- IR is a word of the variant (R35.1) -/
  ir_ok : wordOk s.variant s.ir = true
  /-- `0 <= IC <= N` (R35.2) -/
  ic_le : s.ic ≤ s.variant.words
  /-- OPC is 0..99 in BASIC (R27) -/
  opc_lt : s.variant = .basic → s.opc < 100
  /-- OPD is 0..99 (R28) -/
  opd_lt : s.opd < 100
  /-- BASIC has no float mode (R30) -/
  fm_basic : s.variant = .basic → s.fm = false
  /-- `HLT` implies not `RUN` (R35.3) -/
  hlt_run : s.hlt = true → s.run = false
  /-- `HLT` implies `PEND = None` (R35.4) -/
  hlt_pend : s.hlt = true → s.pend = none
  /-- a pending request is the one of the instruction at `IC`, latched in IR, OPC, OPD (R35.5) -/
  pend_ok : ∀ p, s.pend = some p → s.ic < s.variant.words ∧ s.ir = Memory.read s.memory s.ic ∧ p.target = s.opd ∧
    s.opc = p.instr.opcode ∧ decode s.ir = .ok p.instr ∧ p.instr.inTable s.variant = true

/-- The next command is a STEP of an empty queue, in control state Ready: it fetches (40_cycle.md R131). -/
structure Stepping (s : State) : Prop where
  queue : s.commands = []
  ready : s.control = .ready

/-- The commands that replace the whole state (10_state.md R40). -/
def Command.discards : Command → Bool
  | .reset => true
  | .load _ => true
  | .loadText _ => true
  | .step => false
  | .provideInput _ => false
  | .snapshot => false

/-- The word at `IC`, the one the next STEP fetches (40_cycle.md R133). -/
def State.fetched (s : State) : Word := Memory.read s.memory s.ic

/-- The value of the last entry of an image that names the address `a`, as the word it is installed as; 0 if none does
(70_reset_and_hazards.md R335). -/
def Image.lastWord (image : Image) (a : Nat) : Word :=
  match image.reverse.find? fun e => e.1 = (a : Int) with
  | some e => e.2.word
  | none => .ofInt 0

/-- An entry of an image that LOAD accepts: the address is in `[0, N)`, and in BASIC the value is an integer in
[-9999, 9999] (70_reset_and_hazards.md R332, R333, R334); a hex value is one that a text of the variant yields
(30_encoding.md R106; log entry 14). -/
structure LoadableEntry (v : Variant) (e : Int × ImageValue) : Prop where
  address : 0 ≤ e.1 ∧ e.1 < v.words
  basic : v = .basic → ∃ z : Int, e.2 = .dec z ∧ -9999 ≤ z ∧ z ≤ 9999
  extended : v = .extended → ∀ t, e.2 = .hex t → ∃ n, hexLiteral? t = some n

/-- A number that is no integer (43_arithmetic.md R232). -/
def NonIntegral (x : XNum) : Prop :=
  (∃ q : Rat, x = .rat q ∧ q.den ≠ 1) ∨ ∃ k, x = .special k ∧ Config.specialIsZero k = false

/-- The character codes of packed words `ws 0, ws 1, …`: `hi_j`, the hundreds of word `j`, at position `2j`, and `lo_j`,
its last two digits, at position `2j + 1` (41_io.md R168). -/
def packedCode (ws : Nat → Nat) (i : Nat) : Nat := if i % 2 = 0 then ws (i / 2) / 100 else ws (i / 2) % 100

/-- The text of the first `len` codes of packed words (R168). -/
def packedText (len : Nat) (ws : Nat → Nat) : Text := (List.range len).map fun i => Char.ofNat (packedCode ws i)

/-- A word that is no body word of a packed string: a string, or no non-negative integer (41_io.md R163). -/
def NoBodyWord (w : Word) : Prop :=
  (∃ t, w = .str t) ∨ (∃ z : Int, w = .ofInt z ∧ z < 0) ∨ ∃ x, w = .num x ∧ NonIntegral x

/-- The form "(operand check, read of m, Str refusal)" of 43_arithmetic.md R221: the instruction `i a` answers
`result x` for the number `x` at `a`, refuses a `Str` (R233), and raises `E_OPERAND` outside memory (R283). -/
structure ReadsNumber (i : Nat → Instr) (s : State) (a : Nat) (result : XNum → Result) : Prop where
  number : ∀ x, a < s.variant.words → Memory.read s.memory a = .num x → exec (i a) s = result x
  string : ∀ t, a < s.variant.words → Memory.read s.memory a = .str t → exec (i a) s = .refused .stringOperand
  outside : s.variant.words ≤ a → exec (i a) s = .next { s with reply := .outcome (.failed .eOperand) }

end Machine
end Sys2Proof
end

