-- ==== Sys2Proof/Certificates/Slice0/Obligations.lean ====
section
/-! DEFINITION. The statements about the model, in the order of OBLIGATIONS.json. Each docstring names the rule of spec/
it formalises. -/

open Sys2Proof Sys2Proof.Machine

/-! ### Encoding -/

/-- Words written out from 30_encoding.md R91, R94 to R98 (95_test_vectors.md V1). -/
def Obligations.SampleWordsDecode : Prop :=
  decode (.ofInt 1007) = .ok (.read 7) ∧ decode (.ofInt (-1007)) = .ok (.read 7) ∧
  decode (.ofInt 2007) = .ok (.load 7) ∧ decode (.ofInt 3299) = .ok (.divide 99) ∧
  decode (.ofInt 3399) = .ok (.multiply 99) ∧ decode (.ofInt (-4399)) = .ok (.halt 99) ∧
  decode (.ofInt 5599) = .ok (.multiplyFloat 99) ∧ decode (.str ['0', 'x', '1', '0', 'C', 'C']) = .ok (.halt 0) ∧
  decode (.ofInt 0) = .error (.noSuchOpcode 0) ∧ decode (.ofInt 12345) = .error (.noSuchOpcode 123)

/-- Decoding an encoded instruction gives it back, with either sign of the word (R97) and through the bit view of the
opcode table (R100). -/
def Obligations.DecodeOfEncodeIsTheInstruction : Prop :=
  ∀ i : Instr, i.wellFormed = true →
    decode (.ofInt (encode i)) = .ok i ∧ decode (.ofInt (-(encode i))) = .ok i ∧
    ∃ b, bcd17? (encode i) = some b ∧ decodeTableWord 24 b = some i

/-- R97, R91: the sign is ignored, and the word an instruction was decoded from is its encoding but for the sign. -/
def Obligations.EncodeOfDecodeIsTheWordWithoutSign : Prop :=
  ∀ (z : Int) (i : Instr), decode (.ofInt z) = .ok i →
    i.wellFormed = true ∧ encode i = z.natAbs ∧ decode (.ofInt (-z)) = .ok i

/-- R100: the bit view of a word of at most four digits, and the two fields read from it. -/
def Obligations.BcdViewHoldsTheWord : Prop :=
  ∀ z : Int, z.natAbs ≤ 9999 → ∃ b, bcd17? z = some b ∧ b < 2 ^ 17 ∧ bcd17Word? b = some z ∧
    (splitInt z).1 = 10 * (b / 2 ^ 12 % 16) + b / 2 ^ 8 % 16 ∧ (splitInt z).2 = 10 * (b / 2 ^ 4 % 16) + b % 16

/-- R98 (b), R106: a `0x` literal is `0x` and one or more of `0-9A-Fa-f`; it is decoded as the integer its digits spell, a
digit counting 0 to 15 and each further digit counting 16 times less. -/
def Obligations.HexLiteralDecodesAsItsInteger : Prop :=
  (∀ (t : Text) (n : Nat), hexLiteral? t = some n → decode (.str t) = decode (.ofInt n)) ∧
  (∀ (c : Char) (n : Nat), hexDigit? c = some n ↔
    (n ≤ 9 ∧ c.toNat = '0'.toNat + n) ∨ (10 ≤ n ∧ n ≤ 15 ∧ (c.toNat + 10 = 'A'.toNat + n ∨ c.toNat + 10 = 'a'.toNat + n))) ∧
  (∀ t : Text, (∃ n, hexLiteral? t = some n) ↔
    ∃ (c : Char) (cs : Text), t = '0' :: 'x' :: c :: cs ∧ ∀ d ∈ c :: cs, ∃ k, hexDigit? d = some k) ∧
  (∀ (c : Char) (n : Nat), hexDigit? c = some n → hexLiteral? ['0', 'x', c] = some n) ∧
  (∀ (t : Text) (c : Char) (n k : Nat), hexLiteral? t = some n → hexDigit? c = some k →
    hexLiteral? (t ++ [c]) = some (16 * n + k))

/-! ### The STEP frame -/

/-- A STEP runs the instruction its word decodes to, on the state with RUN, IR, OPC, OPD written (R130 to R135). -/
def Obligations.StepRunsTheDecodedInstruction : Prop :=
  ∀ (s : State) (i : Instr), Stepping s → s.ic < s.variant.words → decode s.fetched = .ok i →
    step s = exec i { s with run := true, ir := s.fetched, opc := i.opcode, opd := i.operand }

/-- R131: a STEP while halted or while a request is outstanding succeeds and changes nothing. -/
def Obligations.StepWhileHaltedOrWaitingChangesNothing : Prop :=
  ∀ s : State, s.commands = [] → s.hlt = true ∨ s.pend ≠ none →
    step s = .next { s with reply := .outcome (.ok none) }

/-- R133, R282: outside `[0, N)` the fetch raises `E_COUNTER`, and RUN is all that changes. -/
def Obligations.CounterOutsideMemoryRaisesECounter : Prop :=
  ∀ s : State, Stepping s → s.variant.words ≤ s.ic →
    step s = .next { s with run := true, reply := .outcome (.failed .eCounter) }

/-- R96: a fetched word whose opcode is not in the variant's table raises `E_OPCODE`, and RUN, IR, OPC, OPD are all that
is written; the word 0 is such a word. -/
def Obligations.IllegalOpcodeRaisesEOpcode : Prop :=
  (∀ (s : State) (z : Int), Stepping s → s.ic < s.variant.words → s.fetched.int? = some z →
    z.natAbs / 100 ∉ s.variant.opcodes →
    step s = .next { s with run := true, ir := s.fetched, opc := z.natAbs / 100, opd := z.natAbs % 100,
                            reply := .outcome (.failed .eOpcode) }) ∧
  ∀ v : Variant, 0 ∉ v.opcodes

/-- R98 (c): a fetched word with no integer value raises `E_OPCODE`, with OPC and OPD unchanged. -/
def Obligations.WordWithoutIntegerValueRaisesEOpcode : Prop :=
  ∀ s : State, Stepping s → s.ic < s.variant.words → s.fetched.int? = none →
    step s = .next { s with run := true, ir := s.fetched, reply := .outcome (.failed .eOpcode) }

/-- R138: a STEP that raises has changed at most RUN, IR, OPC, OPD; IC, ACC and HLT are as before. -/
def Obligations.FailedStepChangesOnlyFetchRegisters : Prop :=
  ∀ (s t : State) (e : ErrorLabel), Stepping s → step s = .next t → t.reply = .outcome (.failed e) →
    t = { s with run := true, ir := t.ir, opc := t.opc, opd := t.opd, reply := .outcome (.failed e) }

/-- R140: after a fatal error the core is Ready with IC at the failing instruction, and every further STEP fails in the
same way, for ever. -/
def Obligations.FailedStepFailsForEver : Prop :=
  ∀ (s t : State) (e : ErrorLabel), Stepping s → step s = .next t → t.reply = .outcome (.failed e) →
    t.control = .ready ∧ t.ic = s.ic ∧ ∀ n : Nat, Sys2Proof.core.run n t = .next t

/-- R137, R37: a STEP ends in exactly one of the four ways, and appends at most one entry, whose text is its output. -/
def Obligations.StepOutcomeIsOneOfFour : Prop :=
  ∀ s t : State, s.commands = [] → step s = .next t →
    (t.reply = .outcome (.ok none) ∧ t.out = s.out) ∨
    (∃ e : OutEntry, t.reply = .outcome (.ok (some e.text)) ∧ t.out = s.out ++ [e]) ∨
    (∃ k : InputKind, t.reply = .outcome (.waiting k) ∧ t.out = s.out ∧ t.pend = some ⟨k, t.opd⟩) ∨
    (∃ e : ErrorLabel, t.reply = .outcome (.failed e) ∧ t.out = s.out)

/-- R136: the counter after a STEP. -/
def Obligations.CounterUpdateAfterStep : Prop :=
  ∀ (s t : State) (i : Instr), Stepping s → s.ic < s.variant.words → decode s.fetched = .ok i → step s = .next t →
    (∀ e, t.reply = .outcome (.failed e) → t.ic = s.ic) ∧
    (∀ k, t.reply = .outcome (.waiting k) → t.ic = s.ic) ∧
    (∀ a, i = .halt a → t.ic = s.ic) ∧
    (i.jumps s.acc = true → t.ic = i.operand) ∧
    (∀ o, t.reply = .outcome (.ok o) → i.jumps s.acc = false → (∀ a, i ≠ .halt a) → t.ic = s.ic + 1)

/-! ### Whole-machine rules -/

/-- R2, R35.6: nothing switches between the variants at run time, and the output log only grows between two RESET or LOAD
commands. -/
def Obligations.VariantIsFixedAndOutputOnlyGrows : Prop :=
  ∀ s t : State, step s = .next t →
    t.variant = s.variant ∧ ((nextCommand s).1.discards = false → ∃ es, t.out = s.out ++ es)

/-- Decision D32, R33: no error is remembered, so what a step does is independent of the last reply. -/
def Obligations.LastReplyIsNeverRead : Prop :=
  ∀ (s : State) (r : Reply), step { s with reply := r } = step s

/-- R35: the invariants hold after reset, in both variants. -/
def Obligations.InvariantsHoldAtReset : Prop :=
  ∀ v : Variant, Inv (State.resetOf v)

/-- R35: every step, whatever the command, keeps the invariants. -/
def Obligations.EveryStepKeepsTheInvariants : Prop :=
  ∀ s t : State, Inv s → step s = .next t → Inv t

/-- R294 for BASIC: every command in every state that satisfies the invariants has a next state. -/
def Obligations.BasicStepAlwaysAnswers : Prop :=
  ∀ s : State, Inv s → s.variant = .basic → ∃ t, step s = .next t

/-- The model's faults are unreachable: no step from a state that satisfies the invariants faults (R294). -/
def Obligations.NoStepFaultsUnderTheInvariants : Prop :=
  ∀ (s : State) (f : Fault), Inv s → step s ≠ .fault f

/-- Where a STEP is refused: a string cell at the operand of an instruction that needs a number (R233), or a WRITE_STRING
(R163, R168). Both are cases of EXTENDED only, in states that satisfy the invariants. -/
def Obligations.RefusedStepReadsAStringOrWritesOne : Prop :=
  ∀ (s : State) (r : Refusal), Inv s → Stepping s → step s = .refused r →
    ∃ i, decode s.fetched = .ok i ∧ s.variant = .extended ∧ s.ic < s.variant.words ∧
      ((r = .stringOperand ∧ i.readsNumber = true ∧ ∃ t, Memory.read s.memory i.operand = .str t) ∨
       (∃ a, i = .writeString a ∧ r ∈ [.malformedHeader, .malformedBody, .outsideAscii] ∧
         ∃ x, Memory.read s.memory a = .num x))

/-- R29, R263: only HALT sets HLT, and it clears RUN, keeps IC and appends the termination message. -/
def Obligations.OnlyHaltSetsHalted : Prop :=
  ∀ s t : State, step s = .next t → s.hlt = false → t.hlt = true →
    ∃ a, decode s.fetched = .ok (.halt a) ∧ t.run = false ∧ t.ic = s.ic ∧ t.out = s.out ++ [.outHalt]

/-- R40, R302: in Halted only RESET and LOAD change the core. -/
def Obligations.HaltedEndsOnlyByResetOrLoad : Prop :=
  ∀ s : State, Inv s → s.hlt = true → (nextCommand s).1.discards = false →
    ∃ t, step s = .next t ∧ t.toCoreState = s.toCoreState

/-- R31, R301: a pending request ends only by RESET, LOAD or a successful PROVIDE_INPUT, which moves IC by one. -/
def Obligations.PendingEndsOnlyByInputResetOrLoad : Prop :=
  ∀ (s t : State) (p : Pending), step s = .next t → s.pend = some p → s.hlt = false → t.pend ≠ some p →
    (nextCommand s).1.discards = true ∨
    ((∃ v, (nextCommand s).1 = .provideInput v) ∧ t.pend = none ∧ t.ic = s.ic + 1 ∧
      t.reply = .outcome (.ok none))

/-- R30: FM is set by opcodes 50 to 55 on success only, and cleared by RESET and LOAD only. -/
def Obligations.FloatModeIsSticky : Prop :=
  ∀ s t : State, step s = .next t → (nextCommand s).1.discards = false →
    (s.fm = true → t.fm = true) ∧
    (s.fm = false → t.fm = true →
      ∃ i, decode s.fetched = .ok i ∧ i.isFloat = true ∧ t.reply = .outcome (.ok none))

/-- R24: ACC is written by the listed instructions only, and by RESET and LOAD. -/
def Obligations.AccumulatorIsWrittenOnlyByTheListed : Prop :=
  ∀ s t : State, step s = .next t → t.acc ≠ s.acc →
    (nextCommand s).1.discards = true ∨
    ((nextCommand s).1 = .step ∧ ∃ i, decode s.fetched = .ok i ∧ i.writesAcc = true ∧ t.reply = .outcome (.ok none))

/-- R66: a STEP writes memory by STORE and STORE_FLOAT only, ACC into the one word at the operand. -/
def Obligations.StepWritesMemoryOnlyByStore : Prop :=
  ∀ s t : State, step s = .next t → (nextCommand s).1 = .step →
    (∀ b, Memory.read t.memory b = Memory.read s.memory b) ∨
    ∃ a, (decode s.fetched = .ok (.store a) ∨ decode s.fetched = .ok (.storeFloat a)) ∧
      Memory.read t.memory a = .num s.acc ∧ ∀ b, b ≠ a → Memory.read t.memory b = Memory.read s.memory b

/-- R72: the word a STORE writes over the next instruction is the word the next STEP fetches. -/
def Obligations.StoredWordIsFetchedByTheNextStep : Prop :=
  ∀ s : State, Stepping s → s.ic + 1 < s.variant.words → decode s.fetched = .ok (.store (s.ic + 1)) →
    ∃ t, step s = .next t ∧ t.ic = s.ic + 1 ∧ t.fetched = .num s.acc

/-! ### Input and output instructions -/

/-- R160: READ suspends. -/
def Obligations.ReadSuspendsForANumber : Prop :=
  ∀ (s : State) (a : Nat),
    (a < s.variant.words →
      exec (.read a) s = .next { s with pend := some ⟨.number, a⟩, reply := .outcome (.waiting .number) }) ∧
    (s.variant.words ≤ a → exec (.read a) s = .next { s with reply := .outcome (.failed .eOperand) })

/-- R162: READ_STRING suspends, in EXTENDED. -/
def Obligations.ReadStringSuspendsForAString : Prop :=
  ∀ (s : State) (a : Nat), s.variant = .extended →
    (a < s.variant.words →
      exec (.readString a) s = .next { s with pend := some ⟨.string, a⟩, reply := .outcome (.waiting .string) }) ∧
    (s.variant.words ≤ a → exec (.readString a) s = .next { s with reply := .outcome (.failed .eOperand) })

/-- R161: WRITE appends the number at the operand, rendered as R169 and R170 say. -/
def Obligations.WriteAppendsTheNumber : Prop :=
  ∀ (s : State) (a : Nat), ReadsNumber .write s a fun x =>
    .next { s with out := s.out ++ [.outNum x s.fm], ic := s.ic + 1, reply := .outcome (.ok (some (x.fmt s.fm))) }

/-- R163, R168: WRITE_STRING passes a string cell through, appends the text `chr(hi_0) chr(lo_0) …` of a packed string,
refuses a code above 127, raises `E_OPERAND` past the end of memory, and refuses a malformed header or body. -/
def Obligations.WriteStringAppendsTheText : Prop :=
  ∀ (s : State) (a : Nat), s.variant = .extended →
    (∀ t, a < s.variant.words → Memory.read s.memory a = .str t →
      exec (.writeString a) s =
        .next { s with out := s.out ++ [.outStr t], ic := s.ic + 1, reply := .outcome (.ok (some t)) }) ∧
    (∀ (len : Nat) (ws : Nat → Nat), Memory.read s.memory a = .ofInt (len * 100 : Nat) →
      a + (len + 1) / 2 ≤ s.variant.words - 1 →
      (∀ j, j < (len + 1) / 2 → Memory.read s.memory (a + 1 + j) = .ofInt (ws j)) →
      ((∀ i, i < len → packedCode ws i ≤ 127) → exec (.writeString a) s =
        .next { s with out := s.out ++ [.outStr (packedText len ws)], ic := s.ic + 1,
                       reply := .outcome (.ok (some (packedText len ws))) }) ∧
      ((∃ i, i < len ∧ 127 < packedCode ws i) → exec (.writeString a) s = .refused .outsideAscii)) ∧
    (∀ len : Nat, a < s.variant.words → Memory.read s.memory a = .ofInt (len * 100 : Nat) →
      s.variant.words - 1 < a + (len + 1) / 2 →
      exec (.writeString a) s = .next { s with reply := .outcome (.failed .eOperand) }) ∧
    (∀ z : Int, a < s.variant.words → Memory.read s.memory a = .ofInt z → z < 0 ∨ z % 100 ≠ 0 →
      exec (.writeString a) s = .refused .malformedHeader) ∧
    (∀ x, a < s.variant.words → Memory.read s.memory a = .num x → NonIntegral x →
      exec (.writeString a) s = .refused .malformedHeader) ∧
    (∀ len j : Nat, Memory.read s.memory a = .ofInt (len * 100 : Nat) → a + (len + 1) / 2 ≤ s.variant.words - 1 →
      j < (len + 1) / 2 → NoBodyWord (Memory.read s.memory (a + 1 + j)) →
      exec (.writeString a) s = .refused .malformedBody) ∧
    (s.variant.words ≤ a → exec (.writeString a) s = .next { s with reply := .outcome (.failed .eOperand) })

/-- R164: WRITE_NEWLINE appends the newline marker, whatever its operand. -/
def Obligations.WriteNewlineAppendsTheMarker : Prop :=
  ∀ (s : State) (a : Nat), s.variant = .extended →
    exec (.writeNewline a) s =
      .next { s with out := s.out ++ [.outNewline], ic := s.ic + 1, reply := .outcome (.ok (some ['\n'])) }

/-- R95, R96: in BASIC each of the eleven EXTENDED instructions raises `E_OPCODE` and does nothing else. -/
def Obligations.ExtendedInstructionsAreIllegalInBasic : Prop :=
  ∀ (s : State) (i : Instr), s.variant = .basic → i.opcode ∉ Variant.basic.opcodes →
    exec i s = .next { s with reply := .outcome (.failed .eOpcode) }

/-! ### Load and store -/

/-- R200: LOAD. -/
def Obligations.LoadMovesTheWordToAcc : Prop :=
  ∀ (s : State) (a : Nat), ReadsNumber .load s a fun x =>
    .next { s with acc := x, ic := s.ic + 1, reply := .outcome (.ok none) }

/-- R202: LOAD_FLOAT is LOAD that also sets FM. -/
def Obligations.LoadFloatAlsoSetsFloatMode : Prop :=
  ∀ (s : State) (a : Nat), s.variant = .extended → ReadsNumber .loadFloat s a fun x =>
    .next { s with acc := x, fm := true, ic := s.ic + 1, reply := .outcome (.ok none) }

/-- R201: STORE writes ACC into the one word at its operand and leaves everything else but IC. -/
def Obligations.StoreWritesAccToTheWord : Prop :=
  ∀ (s : State) (a : Nat),
    (a < s.variant.words → ∃ t, exec (.store a) s = .next t ∧
      Memory.read t.memory a = .num s.acc ∧ (∀ b, b ≠ a → Memory.read t.memory b = Memory.read s.memory b) ∧
      t = { s with memory := t.memory, ic := s.ic + 1, reply := .outcome (.ok none) }) ∧
    (s.variant.words ≤ a → exec (.store a) s = .next { s with reply := .outcome (.failed .eOperand) })

/-- R203: STORE_FLOAT is STORE that also sets FM. -/
def Obligations.StoreFloatAlsoSetsFloatMode : Prop :=
  ∀ (s : State) (a : Nat), s.variant = .extended →
    (a < s.variant.words → ∃ t, exec (.storeFloat a) s = .next t ∧
      Memory.read t.memory a = .num s.acc ∧ (∀ b, b ≠ a → Memory.read t.memory b = Memory.read s.memory b) ∧
      t = { s with memory := t.memory, fm := true, ic := s.ic + 1, reply := .outcome (.ok none) }) ∧
    (s.variant.words ≤ a → exec (.storeFloat a) s = .next { s with reply := .outcome (.failed .eOperand) })

/-! ### Arithmetic -/

/-- R220: BASIC ADD, SUBTRACT and MULTIPLY compute the exact result and store it when its magnitude is at most 9999;
otherwise they raise `E_OVERFLOW` and nothing changes. -/
def Obligations.BasicArithmeticIsExactOrOverflows : Prop :=
  ∀ (s : State) (a : Nat) (x y : Int), s.variant = .basic → a < s.variant.words → s.acc = .ofInt x →
    Memory.read s.memory a = .ofInt y →
    ∀ (i : Nat → Instr) (r : Int), (i, r) ∈ [(Instr.add, x + y), (Instr.subtract, x - y), (Instr.multiply, x * y)] →
      (r.natAbs ≤ 9999 →
        exec (i a) s = .next { s with acc := .ofInt r, ic := s.ic + 1, reply := .outcome (.ok none) }) ∧
      (9999 < r.natAbs → exec (i a) s = .next { s with reply := .outcome (.failed .eOverflow) })

/-- R223 for BASIC: DIVIDE stores the floor of the quotient and never overflows on words of the machine; a zero divisor
raises `E_DIVZERO`. -/
def Obligations.BasicDivideStoresTheFloor : Prop :=
  ∀ (s : State) (a : Nat) (x y : Int), s.variant = .basic → a < s.variant.words → s.acc = .ofInt x →
    x.natAbs ≤ 9999 → Memory.read s.memory a = .ofInt y →
    (y ≠ 0 → exec (.divide a) s =
      .next { s with acc := .ofInt ⌊(x : Rat) / y⌋, ic := s.ic + 1, reply := .outcome (.ok none) }) ∧
    (y = 0 → exec (.divide a) s = .next { s with reply := .outcome (.failed .eDivZero) })

/-- R221, R222, R224 in EXTENDED: ADD, SUBTRACT and MULTIPLY store the XNUM result of every two numbers, without a range
check. -/
def Obligations.ExtendedArithmeticStoresTheXnumResult : Prop :=
  ∀ (s : State) (a : Nat), s.variant = .extended →
    ReadsNumber .add s a (fun m =>
      .next { s with acc := s.acc.add m, ic := s.ic + 1, reply := .outcome (.ok none) }) ∧
    ReadsNumber .subtract s a (fun m =>
      .next { s with acc := s.acc.sub m, ic := s.ic + 1, reply := .outcome (.ok none) }) ∧
    ReadsNumber .multiply s a (fun m =>
      .next { s with acc := s.acc.mul m, ic := s.ic + 1, reply := .outcome (.ok none) })

/-- R223, R225, R226 in EXTENDED: DIVIDE, MODULO and POWER store the XNUM result; a zero divisor raises `E_DIVZERO`. -/
def Obligations.ExtendedDivideModuloPowerStoreTheXnumResult : Prop :=
  ∀ (s : State) (a : Nat), s.variant = .extended →
    ReadsNumber .divide s a (fun m =>
      if m.isZero then .next { s with reply := .outcome (.failed .eDivZero) }
      else .next { s with acc := s.acc.floorDiv m, ic := s.ic + 1, reply := .outcome (.ok none) }) ∧
    ReadsNumber .modulo s a (fun m =>
      if m.isZero then .next { s with reply := .outcome (.failed .eDivZero) }
      else .next { s with acc := s.acc.rem m, ic := s.ic + 1, reply := .outcome (.ok none) }) ∧
    ReadsNumber .power s a (fun m =>
      .next { s with acc := s.acc.pow m, ic := s.ic + 1, reply := .outcome (.ok none) })

/-- R227, R228, R230: the float forms of ADD, SUBTRACT and MULTIPLY store the same result and set FM. -/
def Obligations.FloatArithmeticStoresTheResultAndSetsFloatMode : Prop :=
  ∀ (s : State) (a : Nat), s.variant = .extended →
    ReadsNumber .addFloat s a (fun m =>
      .next { s with acc := s.acc.add m, fm := true, ic := s.ic + 1, reply := .outcome (.ok none) }) ∧
    ReadsNumber .subtractFloat s a (fun m =>
      .next { s with acc := s.acc.sub m, fm := true, ic := s.ic + 1, reply := .outcome (.ok none) }) ∧
    ReadsNumber .multiplyFloat s a (fun m =>
      .next { s with acc := s.acc.mul m, fm := true, ic := s.ic + 1, reply := .outcome (.ok none) })

/-- R229: DIVIDE_FLOAT stores the true quotient and sets FM; a zero divisor raises `E_DIVZERO` and sets nothing. -/
def Obligations.DivideFloatStoresTheQuotient : Prop :=
  ∀ (s : State) (a : Nat), s.variant = .extended → ReadsNumber .divideFloat s a fun m =>
    if m.isZero then .next { s with reply := .outcome (.failed .eDivZero) }
    else .next { s with acc := s.acc.div m, fm := true, ic := s.ic + 1, reply := .outcome (.ok none) }

/-- R231, R223: what DIVIDE stores for two integers, in both variants, is the greatest integer not above their quotient;
the remainder it implies has the sign of the divisor; and the rows of R231's table. -/
def Obligations.FloorDivisionIsTheGreatestIntegerBelow : Prop :=
  (∀ a b : Int, b ≠ 0 → ∃ q : Int,
    (∀ (s : State) (k : Nat), k < s.variant.words → s.acc = .ofInt a → (s.variant = .basic → a.natAbs ≤ 9999) →
      Memory.read s.memory k = .ofInt b →
      exec (.divide k) s = .next { s with acc := .ofInt q, ic := s.ic + 1, reply := .outcome (.ok none) }) ∧
    (q : Rat) ≤ (a : Rat) / b ∧ (∀ p : Int, (p : Rat) ≤ (a : Rat) / b → p ≤ q) ∧
    (0 < b → 0 ≤ a - b * q ∧ a - b * q < b) ∧ (b < 0 → b < a - b * q ∧ a - b * q ≤ 0)) ∧
  ∀ row ∈ [((7 : Int), (2 : Int), (3 : Int)), (-7, 2, -4), (7, -2, -4), (-7, -2, 3), (6, 3, 2), (-6, 3, -2), (0, 5, 0),
      (1, 9999, 0), (-1, 9999, -1), (1, -9999, -1), (9999, -1, -9999), (-9999, -1, 9999)],
    ∀ (s : State) (k : Nat), k < s.variant.words → s.acc = .ofInt row.1 → Memory.read s.memory k = .ofInt row.2.1 →
      exec (.divide k) s = .next { s with acc := .ofInt row.2.2, ic := s.ic + 1, reply := .outcome (.ok none) }

/-- R232, laws 1 to 5: exact integer results, the exact quotient where it is a member, `floor(div)` on integers with the
order tests it implies of the quotient, `rem` and `pow` on integers, and the order tests. The quantified values are all integers and all rationals; nothing is said of
an opaque constant. -/
def Obligations.XnumLawsHold : Prop :=
  (∀ a b : Int, (XNum.ofInt a).add (.ofInt b) = .ofInt (a + b) ∧ (XNum.ofInt a).sub (.ofInt b) = .ofInt (a - b) ∧
    (XNum.ofInt a).mul (.ofInt b) = .ofInt (a * b)) ∧
  (∀ p q : Rat, q ≠ 0 → isMember (p / q) = true → (XNum.rat p).div (.rat q) = .rat (p / q)) ∧
  (∀ z : Int, isMember (z : Rat) = true) ∧
  (∀ a b : Int, b ≠ 0 → (XNum.ofInt a).floorDiv (.ofInt b) = .ofInt ⌊(a : Rat) / b⌋) ∧
  (∀ a b : Int, b ≠ 0 → ((XNum.ofInt a).div (.ofInt b)).floor = .ofInt ⌊(a : Rat) / b⌋ ∧
    (((XNum.ofInt a).div (.ofInt b)).isNeg = true ↔ (a : Rat) / b < 0) ∧
    (((XNum.ofInt a).div (.ofInt b)).isZero = true → ⌊(a : Rat) / b⌋ = 0)) ∧
  (∀ x y : XNum, y ≠ .ofInt 0 → x.floorDiv y = (x.div y).floor) ∧
  (∀ p q : Rat, q ≠ 0 → isMember (p / q) = true → (XNum.rat p).floorDiv (.rat q) = .ofInt ⌊p / q⌋) ∧
  (∀ a b : Int, b ≠ 0 → ∃ r : Int, (XNum.ofInt a).rem (.ofInt b) = .ofInt r ∧ (∃ q : Int, a = b * q + r) ∧
    r.natAbs < b.natAbs ∧ (0 ≤ a → 0 ≤ r) ∧ (a ≤ 0 → r ≤ 0)) ∧
  (∀ (a : Int) (n : Nat), 1 ≤ n → (XNum.ofInt a).pow (.ofInt n) = .ofInt (a ^ n)) ∧
  (∀ a : Int, a ≠ 0 → (XNum.ofInt a).pow (.ofInt 0) = .ofInt 1) ∧
  (∀ q : Rat, ((XNum.rat q).isZero = true ↔ q = 0) ∧ ((XNum.rat q).isNeg = true ↔ q < 0) ∧
    ((∃ z, (XNum.rat q).int? = some z) ↔ ∃ z : Int, q = z))

/-! ### Control -/

/-- R260, R261, R262: the branches write IC only. -/
def Obligations.BranchesSetTheCounter : Prop :=
  ∀ (s : State) (t : Nat),
    exec (.branch t) s = .next { s with ic := t, reply := .outcome (.ok none) } ∧
    (s.acc.isNeg = true → exec (.branchneg t) s = .next { s with ic := t, reply := .outcome (.ok none) }) ∧
    (s.acc.isNeg = false → exec (.branchneg t) s = .next { s with ic := s.ic + 1, reply := .outcome (.ok none) }) ∧
    (s.acc.isZero = true → exec (.branchzero t) s = .next { s with ic := t, reply := .outcome (.ok none) }) ∧
    (s.acc.isZero = false → exec (.branchzero t) s = .next { s with ic := s.ic + 1, reply := .outcome (.ok none) })

/-- R263: HALT. -/
def Obligations.HaltStopsAndAppendsTheMessage : Prop :=
  ∀ (s : State) (a : Nat), exec (.halt a) s =
    .next { s with hlt := true, run := false, out := s.out ++ [.outHalt],
                   reply := .outcome (.ok (some Config.haltMsg)) }

/-! ### Texts and strings -/

/-- R169: the text of a BASIC word is its sign and four digits, and reads back as the word. -/
def Obligations.BasicNumbersAreSignAndFourDigits : Prop :=
  ∀ (z : Int) (fm : Bool), z.natAbs ≤ 9999 →
    (XNum.ofInt z).fmt fm = (if z < 0 then '-' else '+') ::
      [digitChar (z.natAbs / 1000), digitChar (z.natAbs / 100 % 10), digitChar (z.natAbs / 10 % 10),
       digitChar (z.natAbs % 10)] ∧
    decimal? ((XNum.ofInt z).fmt fm) = some z

/-- R170, decision D27: an integer of more than four digits prints its sign and all its digits, without leading zeros, and
every integer's text reads back as the integer; a non-integral rational in float mode prints spaces, a sign prefix and
zeros as FMT_X has them, then its magnitude rounded down or up to hundredths, with two digits after the point (that the
padding is spaces and zeros and the rounding is to a neighbouring hundredth is log entry 11). -/
def Obligations.ExtendedNumbersPrintAsR170 : Prop :=
  (∀ (z : Int) (fm : Bool), 9999 < z.natAbs →
    (XNum.ofInt z).fmt fm = (if z < 0 then '-' else '+') :: Nat.toDigits 10 z.natAbs) ∧
  (∀ (z : Int) (fm : Bool), decimal? ((XNum.ofInt z).fmt fm) = some z) ∧
  ∀ q : Rat, q.den ≠ 1 → ∃ (lead : Text) (n : Nat), (n = ⌊100 * |q|⌋ ∨ n = ⌈100 * |q|⌉) ∧
    (∀ c ∈ lead, c ∈ [' ', '-', '+', '0']) ∧
    (XNum.rat q).fmt true =
      lead ++ Nat.toDigits 10 (n / 100) ++ ['.', digitChar (n / 10 % 10), digitChar (n % 10)]

/-- R167: the packed form of an ASCII string is its length times 100, then `ceil(L/2)` words. -/
def Obligations.PackedStringHasHeaderAndPairs : Prop :=
  (∀ t : Text, isAscii t = true → ∃ ws, pack? t = some (t.length * 100 :: ws) ∧ ws.length = (t.length + 1) / 2 ∧
    ∀ j, j < ws.length → ws[j]? = some ((t[2 * j]?.getD 'A').toNat * 100 + (t[2 * j + 1]?.map Char.toNat).getD 0)) ∧
  ∀ t : Text, isAscii t = false → pack? t = none

/-- R168: on any body words, unpacking gives the text of the first `len` codes, or is refused when one of them is above
127; and it gives a packed string back when every character in an odd position has a code below 100. -/
def Obligations.UnpackOfPackIsTheString : Prop :=
  (∀ (len : Nat) (ns : List Nat), ns.length = (len + 1) / 2 →
    ((∀ i, i < len → packedCode (fun j => ns[j]?.getD 0) i ≤ 127) →
      unpack? len ns = some (packedText len fun j => ns[j]?.getD 0)) ∧
    ((∃ i, i < len ∧ 127 < packedCode (fun j => ns[j]?.getD 0) i) → unpack? len ns = none)) ∧
  ∀ t : Text, isAscii t = true → (∀ (j : Nat) (c : Char), t[2 * j + 1]? = some c → c.toNat < 100) →
    ∃ ws, pack? t = some (t.length * 100 :: ws) ∧ unpack? t.length ws = some t

/-! ### The host's commands -/

/-- R173, R165, R166, R167: the two phases of READ, for an integer in [-9999, 9999] in BASIC and every number in
EXTENDED; and the completion of READ_STRING, for every ASCII string that fits: its packed words are stored, and nothing
but them, PEND and IC is written. -/
def Obligations.TwoPhaseInput : Prop :=
  (∀ (s : State) (a : Nat) (x : XNum), Stepping s → s.ic < s.variant.words → decode s.fetched = .ok (.read a) →
    (s.variant = .basic → ∃ z : Int, x = .ofInt z ∧ -9999 ≤ z ∧ z ≤ 9999) →
    ∃ t u, step s = .next t ∧ t.reply = .outcome (.waiting .number) ∧ t.memory = s.memory ∧ t.ic = s.ic ∧
      step { t with commands := [.provideInput (.number x)] } = .next u ∧ u.reply = .outcome (.ok none) ∧
      Memory.read u.memory a = .num x ∧ (∀ b, b ≠ a → Memory.read u.memory b = Memory.read s.memory b) ∧
      u = { t with memory := u.memory, pend := none, ic := s.ic + 1, reply := .outcome (.ok none) }) ∧
  ∀ (s : State) (a : Nat) (str : Text) (cs : List Command), s.commands = .provideInput (.text str) :: cs →
    s.pend = some ⟨.string, a⟩ → (∀ c ∈ str, c.toNat ≤ 127) → a + (str.length + 1) / 2 ≤ s.variant.words - 1 →
    ∃ t, step s = .next t ∧ Memory.read t.memory a = .ofInt (str.length * 100 : Nat) ∧
      (∀ j, j < (str.length + 1) / 2 → Memory.read t.memory (a + 1 + j) =
        .ofInt ((str[2 * j]?.getD 'A').toNat * 100 + (str[2 * j + 1]?.map Char.toNat).getD 0 : Nat)) ∧
      (∀ b, b < a ∨ a + (str.length + 1) / 2 < b → Memory.read t.memory b = Memory.read s.memory b) ∧
      t = { s with memory := t.memory, pend := none, ic := s.ic + 1, commands := cs, reply := .outcome (.ok none) }

/-- R165, R166, R167, R287: a value that is not valid for the request (in BASIC, a number that is no integer in
[-9999, 9999]), or no request at all, is an input error that changes nothing; a string with a character outside ASCII is refused. -/
def Obligations.InputErrorsChangeNothing : Prop :=
  ∀ (s : State) (cs : List Command) (v : InputValue), s.commands = .provideInput v :: cs →
    (s.pend = none → step s = .next { s with commands := cs, reply := .outcome (.failed .iNotWaiting) }) ∧
    (∀ (p : Pending) (x : XNum), s.pend = some p → p.kind = .number → v = .number x → s.variant = .basic →
      (¬∃ z : Int, x = .ofInt z ∧ -9999 ≤ z ∧ z ≤ 9999) →
      step s = .next { s with commands := cs, reply := .outcome (.failed .iBadValue) }) ∧
    (∀ (p : Pending) (t : Text), s.pend = some p → p.kind = .number → v = .text t →
      step s = .next { s with commands := cs, reply := .outcome (.failed .iBadValue) }) ∧
    (∀ (p : Pending) (x : XNum), s.pend = some p → p.kind = .string → v = .number x →
      step s = .next { s with commands := cs, reply := .outcome (.failed .iBadValue) }) ∧
    (∀ (p : Pending) (t : Text), s.pend = some p → p.kind = .string → v = .text t → isAscii t = true →
      s.variant.words - 1 < p.target + (t.length + 1) / 2 →
      step s = .next { s with commands := cs, reply := .outcome (.failed .iBadValue) }) ∧
    (∀ (p : Pending) (t : Text), s.pend = some p → p.kind = .string → v = .text t → isAscii t = false →
      step s = .refused .outsideAscii)

/-- R162, R163, R165, R167, R168: a string provided to a READ_STRING and written by a WRITE_STRING of the same address
is echoed, when its characters in odd positions have codes below 100 and it fits. -/
def Obligations.ProvidedStringIsEchoed : Prop :=
  ∀ (s : State) (a : Nat) (str : Text) (cs : List Command), s.variant = .extended →
    s.commands = .provideInput (.text str) :: cs → s.pend = some ⟨.string, a⟩ → isAscii str = true →
    (∀ (j : Nat) (c : Char), str[2 * j + 1]? = some c → c.toNat < 100) →
    a + (str.length + 1) / 2 < s.variant.words →
    ∃ t, step s = .next t ∧ t.pend = none ∧ t.ic = s.ic + 1 ∧ t.reply = .outcome (.ok none) ∧
      (∀ b, b < a ∨ a + (str.length + 1) / 2 < b → Memory.read t.memory b = Memory.read s.memory b) ∧
      exec (.writeString a) t =
        .next { t with out := t.out ++ [.outStr str], ic := t.ic + 1, reply := .outcome (.ok (some str)) }

/-- R330, R34: RESET, in any state, leaves every register, flag, word, request and entry at its reset value. -/
def Obligations.ResetZeroesEverything : Prop :=
  ∀ (s : State) (cs : List Command), s.commands = .reset :: cs →
    ∃ t, step s = .next t ∧ (∀ a, Memory.read t.memory a = .ofInt 0) ∧ t.acc = .ofInt 0 ∧ t.ic = 0 ∧ t.ir = .ofInt 0 ∧
      t.opc = 0 ∧ t.opd = 0 ∧ t.run = false ∧ t.hlt = false ∧ t.fm = false ∧ t.pend = none ∧ t.out = [] ∧
      t = { State.resetOf s.variant with commands := cs, reply := .completed }

/-- R332 to R335: after a LOAD of an image whose entries are all in range, each word is the last one the image names for
its address, or 0, and everything else has its reset value; the LOAD of a text that parses is the LOAD of its image. -/
def Obligations.LoadedImageReadsBack : Prop :=
  (∀ (s : State) (image : Image) (cs : List Command), s.commands = .load image :: cs →
    (∀ e ∈ image, LoadableEntry s.variant e) →
    ∃ t, step s = .next t ∧ (∀ a, Memory.read t.memory a = image.lastWord a) ∧
      t = { State.resetOf s.variant with memory := t.memory, commands := cs, reply := .loaded }) ∧
  ∀ (s : State) (t : Text) (image : Image) (cs : List Command), s.commands = .loadText t :: cs →
    parseText s.variant t = .ok image → step s = step { s with commands := .load image :: cs }

/-- R332, R333, R334, R336, R290: a failed LOAD leaves the reset state and names the first failing entry: `L_ADDR` for an
address outside `[0, N)`, `L_WORD` for a BASIC value outside [-9999, 9999], `L_PARSE` for a hex value that no text of the
variant yields (log entry 14); so does a text that fails to parse, which names its line (R332, R108). -/
def Obligations.FailedLoadLeavesTheResetState : Prop :=
  (∀ (s : State) (good rest : Image) (a : Int) (v : ImageValue) (cs : List Command),
    s.commands = .load (good ++ (a, v) :: rest) :: cs → (∀ e ∈ good, LoadableEntry s.variant e) →
    (a < 0 ∨ s.variant.words ≤ a →
      step s = .next { State.resetOf s.variant with commands := cs, reply := .loadFailed .lAddr good.length }) ∧
    (∀ z : Int, 0 ≤ a → a < s.variant.words → s.variant = .basic → v = .dec z → z < -9999 ∨ 9999 < z →
      step s = .next { State.resetOf s.variant with commands := cs, reply := .loadFailed .lWord good.length }) ∧
    (∀ t : Text, 0 ≤ a → a < s.variant.words → v = .hex t → s.variant = .basic ∨ hexLiteral? t = none →
      step s = .next { State.resetOf s.variant with commands := cs, reply := .loadFailed .lParse good.length })) ∧
  ∀ (s : State) (t : Text) (line : Nat) (cs : List Command),
    s.commands = .loadText t :: cs → parseText s.variant t = .error line →
    step s = .next { State.resetOf s.variant with commands := cs, reply := .loadFailed .lParse line }

/-- R109, R103: a BASIC text of one integer a line is the image of those integers at the addresses from 0 on. -/
def Obligations.SequentialTextIsItsImage : Prop :=
  ∀ zs : List Int, -99999 ∉ zs →
    parseText .basic (zs.flatMap fun z => fmtInt z ++ ['\n']) =
      .ok (zs.zipIdx.map fun e => ((e.2 : Int), ImageValue.dec e.1))

/-- R299: SNAPSHOT returns a copy of the whole architectural state and changes nothing. -/
def Obligations.SnapshotCopiesTheState : Prop :=
  ∀ (s : State) (cs : List Command), s.commands = .snapshot :: cs →
    step s = .next { s with commands := cs, reply := .snapshot s.toCoreState }
end

