-- ==== Sys2Proof/Laws/Decode.lean ====
section
/-! SUPPORT. The small lemmas of the decoder and of the integer embedding. -/

namespace Sys2Proof

@[simp] theorem XNum.exactInt?_ofInt (z : Int) : (XNum.ofInt z).exactInt? = some z := by
  simp [XNum.ofInt, XNum.exactInt?]

@[simp] theorem XNum.int?_ofInt (z : Int) : (XNum.ofInt z).int? = some z := by
  simp [XNum.ofInt, XNum.int?]

@[simp] theorem Word.int?_ofInt (z : Int) : (Word.ofInt z).int? = some z := by
  simp [Word.ofInt, Word.int?]

/-- A number with an exact integer value is the embedding of it. -/
theorem XNum.eq_ofInt_of_exactInt? {x : XNum} {z : Int} (h : x.exactInt? = some z) : x = .ofInt z := by
  cases x with
  | special k => simp [XNum.exactInt?] at h
  | rat q =>
    simp only [XNum.exactInt?] at h
    split_ifs at h with hd
    simp only [Option.some.injEq] at h
    subst h
    simp only [XNum.ofInt, XNum.rat.injEq]
    exact (Rat.den_eq_one_iff q).mp hd |>.symm

@[simp] theorem XNum.ofInt_inj {a b : Int} : XNum.ofInt a = .ofInt b ↔ a = b := by
  simp [XNum.ofInt]

@[simp] theorem Word.ofInt_inj {a b : Int} : Word.ofInt a = .ofInt b ↔ a = b := by
  simp [Word.ofInt]

@[simp] theorem XNum.isZero_ofInt (z : Int) : (XNum.ofInt z).isZero = decide (z = 0) := by
  rw [Bool.eq_iff_iff, XNum.ofInt, XNum.isZero, decide_eq_true_iff, decide_eq_true_iff, Rat.num_intCast]

@[simp] theorem XNum.isNeg_ofInt (z : Int) : (XNum.ofInt z).isNeg = decide (z < 0) := by
  rw [Bool.eq_iff_iff, XNum.ofInt, XNum.isNeg, decide_eq_true_iff, decide_eq_true_iff, Rat.num_intCast]

/-- The opcode map gives every row back. -/
@[simp] theorem instrOf_opcode (i : Instr) : instrOf i.opcode i.operand = some i := by
  cases i <;> rfl

/-- What the opcode map answers has the opcode and the operand it was asked for. -/
theorem instrOf_eq_some {opc opd : Nat} {i : Instr} (h : instrOf opc opd = some i) :
    i.opcode = opc ∧ i.operand = opd := by
  unfold instrOf at h
  split at h <;> first
    | (cases h; exact ⟨rfl, rfl⟩)
    | cases h

/-- The opcode map has no row exactly outside the EXTENDED table. -/
theorem instrOf_eq_none {opc opd : Nat} : instrOf opc opd = none ↔ opc ∉ Variant.extended.opcodes := by
  constructor
  · intro h hm
    simp only [Variant.opcodes, List.mem_cons, List.not_mem_nil, or_false] at hm
    rcases hm with rfl | rfl | rfl | rfl | rfl | rfl | rfl | rfl | rfl | rfl | rfl | rfl | rfl | rfl | rfl | rfl | rfl |
      rfl | rfl | rfl | rfl | rfl | rfl <;> simp [instrOf] at h
  · intro h
    cases hi : instrOf opc opd with
    | none => rfl
    | some i =>
      obtain ⟨rfl, -⟩ := instrOf_eq_some hi
      cases i <;> simp [Variant.opcodes, Instr.opcode] at h

/-- The rows of a variant's table are the instructions whose opcode it lists. -/
theorem Instr.inTable_iff (v : Variant) (i : Instr) : i.inTable v = true ↔ i.opcode ∈ v.opcodes := by
  cases v <;> cases i <;> simp [Instr.inTable, Instr.opcode, Variant.opcodes]

theorem decode_of_int? {w : Word} {z : Int} (h : w.int? = some z) :
    decode w = match instrOf (splitInt z).1 (splitInt z).2 with
      | none => .error (.noSuchOpcode (splitInt z).1)
      | some i => .ok i := by
  simp only [decode, h]
  all_goals cases instrOf (splitInt z).1 (splitInt z).2 <;> rfl

/-- A word decodes to an instruction exactly when its integer value splits into the opcode and operand of it. -/
theorem decode_eq_ok {w : Word} {i : Instr} :
    decode w = .ok i ↔ ∃ z, w.int? = some z ∧ splitInt z = (i.opcode, i.operand) := by
  constructor
  · intro h
    unfold decode at h
    split at h
    · cases h
    · rename_i z hz
      split at h
      · cases h
      · rename_i j hj
        cases h
        obtain ⟨h1, h2⟩ := instrOf_eq_some hj
        exact ⟨z, hz, Prod.ext h1.symm h2.symm⟩
  · rintro ⟨z, hz, hs⟩
    rw [decode_of_int? hz, hs]
    simp

theorem splitInt_fst (z : Int) : (splitInt z).1 = z.natAbs / 100 := rfl

theorem splitInt_snd (z : Int) : (splitInt z).2 = z.natAbs % 100 := rfl

/-- The operand of a decoded instruction is 0..99 (30_encoding.md R91). -/
theorem operand_lt_of_decode {w : Word} {i : Instr} (h : decode w = .ok i) : i.operand < 100 := by
  obtain ⟨z, -, hs⟩ := decode_eq_ok.mp h
  have := congrArg Prod.snd hs
  simp only [splitInt_snd] at this
  omega

theorem Variant.basic_or_extended (v : Variant) : v = .basic ∨ v = .extended := by cases v <;> simp

theorem Variant.words_ge (v : Variant) : 100 ≤ v.words := by cases v <;> simp [Variant.words]

/-- The operand check of 20_memory.md R61 never fails on a decoded instruction (R61: "can never fail"). -/
theorem operand_lt_words {w : Word} {i : Instr} (v : Variant) (h : decode w = .ok i) : i.operand < v.words :=
  (operand_lt_of_decode h).trans_le v.words_ge

theorem Instr.opcode_le (i : Instr) : i.opcode ≤ 55 := by cases i <;> simp [Instr.opcode]

theorem Instr.opcode_ge (i : Instr) : 10 ≤ i.opcode := by cases i <;> simp [Instr.opcode]

/-- The split of an encoded well-formed instruction, with either sign. -/
theorem splitInt_encode {i : Instr} (h : i.wellFormed = true) :
    splitInt (encode i) = (i.opcode, i.operand) ∧ splitInt (-(encode i)) = (i.opcode, i.operand) := by
  have hw : i.operand < 100 := of_decide_eq_true h
  have he : (encode i).natAbs = i.opcode * 100 + i.operand := by
    simp only [encode, Config.opdiv]
    omega
  constructor <;> refine Prod.ext ?_ ?_ <;> simp only [splitInt_fst, splitInt_snd, Int.natAbs_neg, he] <;> omega

/-- The bit view of a word of at most four digits (30_encoding.md R100). -/
theorem bcd17?_of_le {z : Int} (h : z.natAbs ≤ 9999) :
    bcd17? z = some ((if z < 0 then 1 else 0) * 2 ^ 16 + digit 3 z.natAbs * 2 ^ 12 + digit 2 z.natAbs * 2 ^ 8 +
      digit 1 z.natAbs * 2 ^ 4 + digit 0 z.natAbs) :=
  if_pos h

theorem digit_le (k m : Nat) : digit k m ≤ 9 := by unfold digit; omega

/-- A number of at most four digits is the sum of its digits, and the decode split takes them in pairs
(30_encoding.md R92). -/
theorem four_digits {m : Nat} (h : m ≤ 9999) :
    m = digit 3 m * 1000 + digit 2 m * 100 + digit 1 m * 10 + digit 0 m ∧
    m / 100 = 10 * digit 3 m + digit 2 m ∧ m % 100 = 10 * digit 1 m + digit 0 m := by
  simp only [digit, show (10 : Nat) ^ 3 = 1000 from rfl, show (10 : Nat) ^ 2 = 100 from rfl,
    show (10 : Nat) ^ 1 = 10 from rfl, show (10 : Nat) ^ 0 = 1 from rfl]
  omega

/-- The fields of a pattern given by its sign and its four digits. -/
theorem bcd17_fields {g d3 d2 d1 d0 b : Nat} (hg : g ≤ 1) (h3 : d3 ≤ 9) (h2 : d2 ≤ 9) (h1 : d1 ≤ 9) (h0 : d0 ≤ 9)
    (hb : b = g * 2 ^ 16 + d3 * 2 ^ 12 + d2 * 2 ^ 8 + d1 * 2 ^ 4 + d0) :
    b < 2 ^ 17 ∧ b / 2 ^ 16 = g ∧ b / 2 ^ 12 % 16 = d3 ∧ b / 2 ^ 8 % 16 = d2 ∧ b / 2 ^ 4 % 16 = d1 ∧ b % 16 = d0 := by
  omega

/-- The word of a pattern given by its sign and its four digits (30_encoding.md R100). -/
theorem bcd17Word?_digits {g d3 d2 d1 d0 b : Nat} (hg : g ≤ 1) (h3 : d3 ≤ 9) (h2 : d2 ≤ 9) (h1 : d1 ≤ 9) (h0 : d0 ≤ 9)
    (hb : b = g * 2 ^ 16 + d3 * 2 ^ 12 + d2 * 2 ^ 8 + d1 * 2 ^ 4 + d0) :
    bcd17Word? b = some (if g = 1 then -((d3 * 1000 + d2 * 100 + d1 * 10 + d0 : Nat) : Int)
      else ((d3 * 1000 + d2 * 100 + d1 * 10 + d0 : Nat) : Int)) := by
  obtain ⟨el, eg, e3, e2, e1, e0⟩ := bcd17_fields hg h3 h2 h1 h0 hb
  unfold bcd17Word?
  rw [e3, e2, e1, e0, eg, if_pos ⟨el, h3, h2, h1, h0⟩]

namespace Machine

theorem inBasicRange_iff {z : Int} : inBasicRange z = true ↔ z.natAbs ≤ 9999 := decide_eq_true_iff

/-- The BASIC accumulator domain (10_state.md R24). -/
theorem numberOk_basic {x : XNum} : numberOk .basic x = true ↔ ∃ z : Int, x = .ofInt z ∧ z.natAbs ≤ 9999 := by
  constructor
  · intro h
    simp only [numberOk] at h
    cases hx : x.exactInt? with
    | none => simp [hx] at h
    | some z => exact ⟨z, XNum.eq_ofInt_of_exactInt? hx, inBasicRange_iff.mp (by simpa [hx] using h)⟩
  · rintro ⟨z, rfl, hz⟩
    simpa [numberOk] using inBasicRange_iff.mpr hz

/-- `valid_number` of BASIC: an integer in [-9999, 9999] (41_io.md R166). -/
theorem validNumber_basic {x : XNum} : validNumber .basic x = true ↔ ∃ z : Int, x = .ofInt z ∧ -9999 ≤ z ∧ z ≤ 9999 := by
  rw [show validNumber .basic x = numberOk .basic x from rfl, numberOk_basic]
  constructor <;> rintro ⟨z, hz, h⟩ <;> exact ⟨z, hz, by omega⟩

@[simp] theorem numberOk_extended (x : XNum) : numberOk .extended x = true := rfl

/-- The number 0 is in every domain. -/
theorem numberOk_zero (v : Variant) : numberOk v (.ofInt 0) = true := by
  cases v
  · exact numberOk_basic.mpr ⟨0, rfl, by simp⟩
  · rfl

theorem wordOk_zero (v : Variant) : wordOk v (.ofInt 0) = true := numberOk_zero v

/-- The BASIC word domain (10_state.md R22). -/
theorem wordOk_basic {w : Word} : wordOk .basic w = true ↔ ∃ z : Int, w = .ofInt z ∧ z.natAbs ≤ 9999 := by
  cases w with
  | str u => simp [wordOk, Word.ofInt]
  | num x => simp [wordOk, numberOk_basic, Word.ofInt]

end Machine
end Sys2Proof
end

