-- ==== Sys2Proof/Laws/Arithmetic.lean ====
section
/-! SUPPORT. The laws of division (43_arithmetic.md R231, R232): floor division is the floor of the quotient, and `div` of
integers has that floor. -/

namespace Sys2Proof

/-- `fdiv` is the floor of the rational quotient (R231). -/
theorem fdiv_eq_floor (a : Int) {b : Int} (hb : b ≠ 0) : Int.fdiv a b = ⌊(a : Rat) / b⌋ := by
  symm
  rw [Int.floor_eq_iff, Int.fdiv_eq_ediv]
  have h := Int.emod_add_mul_ediv a b
  have h0 := Int.emod_nonneg a hb
  have h1 := Int.emod_lt_abs a hb
  have hc : (a : Rat) = (a % b : Int) + b * (a / b : Int) := by exact_mod_cast h.symm
  have hb' : (b : Rat) ≠ 0 := by exact_mod_cast hb
  have hd : (a : Rat) / b = ((a % b : Int) : Rat) / b + (a / b : Int) := by
    rw [hc]; field_simp
  rw [hd]
  have h0' : (0 : Rat) ≤ ((a % b : Int) : Rat) := by exact_mod_cast h0
  split_ifs with hc
  · rcases hc with hc | hc
    · have hb2 : (0 : Rat) < b := by exact_mod_cast lt_of_le_of_ne hc (Ne.symm hb)
      have h2 : ((a % b : Int) : Rat) < b := by rw [abs_of_nonneg hc] at h1; exact_mod_cast h1
      have := div_nonneg h0' hb2.le
      have := (div_lt_one hb2).mpr h2
      push_cast
      constructor <;> linarith
    · rw [Int.emod_eq_zero_of_dvd hc]; simp
  · rw [not_or, not_le] at hc
    have hb2 : (b : Rat) < 0 := by exact_mod_cast hc.1
    have hr : 0 < a % b := lt_of_le_of_ne h0 fun e => hc.2 (Int.dvd_of_emod_eq_zero e.symm)
    have hr' : (0 : Rat) < ((a % b : Int) : Rat) := by exact_mod_cast hr
    have h2 : ((a % b : Int) : Rat) < -b := by rw [abs_of_neg hc.1] at h1; exact_mod_cast h1
    have h3 := div_neg_of_pos_of_neg hr' hb2
    have h4 : -1 < ((a % b : Int) : Rat) / b := by rw [lt_div_iff_of_neg hb2]; linarith
    push_cast
    constructor <;> linarith

@[simp] theorem XNum.floor_ofInt (n : Int) : (XNum.ofInt n).floor = .ofInt n := by
  have : Rat.floor (n : Rat) = n := Int.floor_intCast (R := Rat) n
  simp [XNum.ofInt, XNum.floor, this]

@[simp] theorem XNum.floorDiv_ofInt (a b : Int) : (XNum.ofInt a).floorDiv (.ofInt b) = .ofInt (Int.fdiv a b) := by
  simp [XNum.floorDiv, XNum.onInts]

theorem XNum.div_ofInt (a b : Int) : (XNum.ofInt a).div (.ofInt b) = divInts a b := by
  simp [XNum.div, XNum.onInts]

/-- A quotient that is a member is exact (law 2). -/
theorem XNum.div_of_member {p q : Rat} (hm : isMember (p / q) = true) : (XNum.rat p).div (.rat q) = .rat (p / q) := by
  unfold XNum.div XNum.onInts
  split
  · rename_i a b ha hb
    have e1 := XNum.eq_ofInt_of_exactInt? ha
    have e2 := XNum.eq_ofInt_of_exactInt? hb
    simp only [XNum.ofInt, XNum.rat.injEq] at e1 e2
    subst e1 e2
    exact if_pos hm
  · simp [XNum.exactly, hm]

theorem XNum.hasFloor_ofInt (n : Int) : (XNum.ofInt n).hasFloor n = true := by
  simp [XNum.hasFloor]

/-- A rational has its floor, and the order tests agree with it. -/
theorem XNum.hasFloor_rat (q : Rat) : (XNum.rat q).hasFloor ⌊q⌋ = true := by
  have hn : (decide (q.num < 0) = decide (⌊q⌋ < 0)) := by
    rw [decide_eq_decide, Rat.num_neg, Int.floor_lt]; simp
  have hz : q.num = 0 → ⌊q⌋ = 0 := fun h => by rw [Rat.num_eq_zero.mp h]; simp
  have hf : (XNum.rat q).floor = .ofInt ⌊q⌋ := rfl
  simp only [XNum.hasFloor, hf, decide_true, Bool.true_and, decide_eq_true_eq, XNum.isNeg, XNum.isZero,
    hn, Bool.or_eq_true, Bool.not_eq_true', decide_eq_false_iff_not]
  tauto

/-- Law 3 and what it implies with law 5: `div` of integers has the floor `fdiv`, and its order tests are those of the
exact quotient. -/
theorem XNum.hasFloor_div {a b : Int} (hb : b ≠ 0) : ((XNum.ofInt a).div (.ofInt b)).hasFloor (Int.fdiv a b) = true := by
  rw [XNum.div_ofInt, divInts]
  split_ifs with h1 h2
  · rw [fdiv_eq_floor a hb]; exact XNum.hasFloor_rat _
  · exact h2
  · exact XNum.hasFloor_ofInt _

/-- `DIVIDE` is the floor of `div` on every two numbers with a divisor that is not the integer 0 (R223). -/
theorem floorDiv_eq_floor_div {x y : XNum} (hy : y ≠ .ofInt 0) : x.floorDiv y = (x.div y).floor := by
  cases ha : x.exactInt? with
  | none => simp [XNum.floorDiv, XNum.onInts, ha]
  | some a =>
    cases hb : y.exactInt? with
    | none => simp [XNum.floorDiv, XNum.onInts, hb]
    | some b =>
      obtain rfl := XNum.eq_ofInt_of_exactInt? ha
      obtain rfl := XNum.eq_ofInt_of_exactInt? hb
      have h := XNum.hasFloor_div (a := a) (b := b) (by simpa using hy)
      simp only [XNum.hasFloor, Bool.and_eq_true, decide_eq_true_eq] at h
      rw [XNum.floorDiv_ofInt, h.1.1]

/-- A floor quotient is no larger in magnitude than the dividend, so that BASIC DIVIDE never overflows (R223). -/
theorem natAbs_fdiv_le (x y : Int) : (Int.fdiv x y).natAbs ≤ x.natAbs := by
  by_cases h : y = 0
  · simp [h]
  rw [fdiv_eq_floor x h]
  have hy : (1 : Rat) ≤ |(y : Rat)| := by exact_mod_cast Int.one_le_abs h
  have hq : |(x : Rat) / y| ≤ |(x : Rat)| := by
    rw [abs_div]; exact div_le_self (abs_nonneg _) hy
  rw [abs_le] at hq
  have h1 : -|x| ≤ ⌊(x : Rat) / y⌋ := by rw [Int.le_floor]; push_cast; exact hq.1
  have h2 : ⌊(x : Rat) / y⌋ ≤ |x| := by
    have := (Int.floor_le ((x : Rat) / y)).trans hq.2
    exact_mod_cast this
  have h3 := abs_le.mpr ⟨h1, h2⟩
  rw [Int.abs_eq_natAbs, Int.abs_eq_natAbs] at h3
  exact_mod_cast h3

end Sys2Proof
end

