-- ==== Sys2Proof/Laws/Memory.lean ====
section
/-! SUPPORT. The laws of the memory operations: reads after writes, and that every write keeps the canonical form. -/

namespace Sys2Proof.Machine

/-! ### Reading -/

@[simp] theorem Memory.read_nil (a : Nat) : Memory.read [] a = .ofInt 0 := rfl

theorem Memory.read_cons (b : Nat) (w : Word) (m : Memory) (a : Nat) :
    Memory.read ((b, w) :: m) a = if a = b then w else Memory.read m a := rfl

theorem Memory.read_put_same (a : Nat) (w : Word) (m : Memory) : Memory.read (Memory.put a w m) a = w := by
  induction m with
  | nil => simp [Memory.put, Memory.read_cons]
  | cons c m ih =>
    obtain ⟨b, v⟩ := c
    simp only [Memory.put]
    split_ifs with h1 h2 <;> simp [Memory.read_cons, *]

theorem Memory.read_put_other {a b : Nat} (h : b ≠ a) (w : Word) (m : Memory) :
    Memory.read (Memory.put a w m) b = Memory.read m b := by
  induction m with
  | nil => simp [Memory.put, Memory.read_cons, h]
  | cons c m ih =>
    obtain ⟨d, v⟩ := c
    simp only [Memory.put]
    split_ifs with h1 h2
    · simp [Memory.read_cons, h]
    · subst h2; simp [Memory.read_cons, h]
    · simp [Memory.read_cons, ih]

theorem Memory.read_erase_same (a : Nat) (m : Memory) : Memory.read (Memory.erase a m) a = .ofInt 0 := by
  induction m with
  | nil => rfl
  | cons c m ih =>
    obtain ⟨d, v⟩ := c
    simp only [Memory.erase]
    split_ifs with h
    · exact ih
    · simp [Memory.read_cons, h, ih]

theorem Memory.read_erase_other {a b : Nat} (h : b ≠ a) (m : Memory) :
    Memory.read (Memory.erase a m) b = Memory.read m b := by
  induction m with
  | nil => rfl
  | cons c m ih =>
    obtain ⟨d, v⟩ := c
    simp only [Memory.erase]
    split_ifs with h1
    · subst h1; simp [Memory.read_cons, h, ih]
    · simp [Memory.read_cons, ih]

/-- A read after a write of the same cell returns the value written (20_memory.md R67). -/
@[simp] theorem Memory.read_write_same (a : Nat) (w : Word) (m : Memory) :
    Memory.read (Memory.write a w m) a = w := by
  unfold Memory.write
  split_ifs with h
  · rw [h]; exact Memory.read_erase_same a m
  · exact Memory.read_put_same a w m

/-- A write changes no other cell (20_memory.md R61). -/
theorem Memory.read_write_other {a b : Nat} (h : b ≠ a) (w : Word) (m : Memory) :
    Memory.read (Memory.write a w m) b = Memory.read m b := by
  unfold Memory.write
  split_ifs
  · exact Memory.read_erase_other h m
  · exact Memory.read_put_other h w m

theorem Memory.read_write (a b : Nat) (w : Word) (m : Memory) :
    Memory.read (Memory.write a w m) b = if b = a then w else Memory.read m b := by
  split_ifs with h
  · subst h; simp
  · exact Memory.read_write_other h w m

/-- A write of consecutive words changes no cell outside them. -/
theorem Memory.read_writeAll_other (ws : List Word) : ∀ (a b : Nat) (m : Memory), b < a ∨ a + ws.length ≤ b →
    Memory.read (Memory.writeAll a ws m) b = Memory.read m b := by
  induction ws with
  | nil => intros; rfl
  | cons w ws ih =>
    intro a b m h
    simp only [Memory.writeAll, List.length_cons] at h ⊢
    rw [ih _ _ _ (by omega), Memory.read_write_other (by omega)]

/-- Reading back the cells of a write of consecutive words. -/
theorem Memory.read_writeAll (ws : List Word) : ∀ (a j : Nat) (m : Memory), (h : j < ws.length) →
    Memory.read (Memory.writeAll a ws m) (a + j) = ws[j] := by
  induction ws with
  | nil => intro a j m h; simp at h
  | cons w ws ih =>
    intro a j m h
    cases j with
    | zero =>
      simp only [Memory.writeAll, Nat.add_zero, List.getElem_cons_zero]
      rw [Memory.read_writeAll_other _ _ _ _ (by omega), Memory.read_write_same]
    | succ j =>
      simp only [Memory.writeAll, List.getElem_cons_succ]
      rw [show a + (j + 1) = a + 1 + j by omega]
      exact ih _ _ _ (by simpa using h)

theorem Memory.readAll_eq (m : Memory) (n : Nat) : ∀ a, Memory.readAll m a n = (List.range n).map fun j => Memory.read m (a + j) := by
  induction n with
  | zero => intro a; rfl
  | succ n ih =>
    intro a
    simp only [Memory.readAll, ih, List.range_succ_eq_map, List.map_cons, List.map_map, Nat.add_zero]
    congr 1
    apply List.map_congr_left
    intro j _
    simp [Nat.add_assoc, Nat.add_comm 1 j]

/-- Consecutive words are read back as they were written. -/
theorem Memory.readAll_writeAll (ws : List Word) : ∀ (a : Nat) (m : Memory),
    Memory.readAll (Memory.writeAll a ws m) a ws.length = ws := by
  intro a m
  rw [Memory.readAll_eq]
  apply List.ext_getElem
  · simp
  · intro j h1 h2
    simp [Memory.read_writeAll _ _ _ _ h2]

/-! ### The canonical form -/

theorem Memory.wf_iff (m : Memory) : Memory.wf m = true ↔
    (m.map Prod.fst).Pairwise (· < ·) ∧ ∀ c ∈ m, c.2 ≠ Memory.unlisted := by
  simp [Memory.wf]

theorem Memory.mem_put {a : Nat} {w : Word} {m : Memory} {c : Nat × Word} (h : c ∈ Memory.put a w m) :
    c = (a, w) ∨ c ∈ m := by
  induction m with
  | nil => simpa [Memory.put] using h
  | cons d m ih =>
    obtain ⟨b, v⟩ := d
    simp only [Memory.put] at h
    split_ifs at h with h1 h2 <;> simp only [List.mem_cons] at h ⊢ <;> tauto

theorem Memory.mem_erase {a : Nat} {m : Memory} {c : Nat × Word} (h : c ∈ Memory.erase a m) : c ∈ m := by
  induction m with
  | nil => simp [Memory.erase] at h
  | cons d m ih =>
    obtain ⟨b, v⟩ := d
    simp only [Memory.erase] at h
    split_ifs at h with h1
    · exact List.mem_cons_of_mem _ (ih h)
    · simp only [List.mem_cons] at h ⊢; tauto

/-- Every entry after a write was there before or is the one written. -/
theorem Memory.mem_write {a : Nat} {w : Word} {m : Memory} {c : Nat × Word} (h : c ∈ Memory.write a w m) :
    c = (a, w) ∨ c ∈ m := by
  unfold Memory.write at h
  split_ifs at h
  · exact .inr (Memory.mem_erase h)
  · exact Memory.mem_put h

theorem Memory.wf_erase {a : Nat} {m : Memory} (h : Memory.wf m = true) : Memory.wf (Memory.erase a m) = true := by
  rw [Memory.wf_iff] at h ⊢
  refine ⟨?_, fun c hc => h.2 c (Memory.mem_erase hc)⟩
  have sub : ∀ m : Memory, (Memory.erase a m).Sublist m := by
    intro m
    induction m with
    | nil => exact List.Sublist.refl _
    | cons d m ih =>
      obtain ⟨b, v⟩ := d
      simp only [Memory.erase]
      split_ifs
      · exact ih.cons _
      · exact ih.cons_cons _
  exact h.1.sublist ((sub m).map _)

theorem Memory.wf_put {a : Nat} {w : Word} {m : Memory} (hw : w ≠ Memory.unlisted) (h : Memory.wf m = true) :
    Memory.wf (Memory.put a w m) = true := by
  rw [Memory.wf_iff] at h ⊢
  refine ⟨?_, ?_⟩
  · obtain ⟨h, -⟩ := h
    induction m with
    | nil => simp [Memory.put]
    | cons d m ih =>
      obtain ⟨b, v⟩ := d
      simp only [List.map_cons, List.pairwise_cons, List.mem_map] at h
      simp only [Memory.put]
      split_ifs with h1 h2
      · simp only [List.map_cons, List.pairwise_cons, List.mem_cons, List.mem_map]
        refine ⟨?_, fun x hx => h.1 x hx, h.2⟩
        rintro x (rfl | hx)
        · exact h1
        · exact h1.trans (h.1 x hx)
      · subst h2
        simp only [List.map_cons, List.pairwise_cons, List.mem_map]
        exact ⟨fun x hx => h.1 x hx, h.2⟩
      · simp only [List.map_cons, List.pairwise_cons, List.mem_map]
        refine ⟨?_, ih h.2⟩
        rintro x ⟨c, hc, rfl⟩
        rcases Memory.mem_put hc with rfl | hc
        · dsimp only; omega
        · exact h.1 _ ⟨c, hc, rfl⟩
  · intro c hc
    rcases Memory.mem_put hc with rfl | hc
    · exact hw
    · exact h.2 c hc

/-- Every write keeps the canonical form. -/
theorem Memory.wf_write {a : Nat} {w : Word} {m : Memory} (h : Memory.wf m = true) :
    Memory.wf (Memory.write a w m) = true := by
  unfold Memory.write
  split_ifs with hw
  · exact Memory.wf_erase h
  · exact Memory.wf_put hw h

theorem Memory.wf_writeAll (ws : List Word) : ∀ {a : Nat} {m : Memory}, Memory.wf m = true →
    Memory.wf (Memory.writeAll a ws m) = true := by
  induction ws with
  | nil => intro _ _ h; exact h
  | cons w ws ih => intro _ _ h; exact ih (Memory.wf_write h)

theorem Memory.mem_writeAll (ws : List Word) : ∀ {a : Nat} {m : Memory} {c : Nat × Word},
    c ∈ Memory.writeAll a ws m → (∃ j w, j < ws.length ∧ w ∈ ws ∧ c = (a + j, w)) ∨ c ∈ m := by
  induction ws with
  | nil => intro a m c h; exact .inr h
  | cons w ws ih =>
    intro a m c h
    rcases ih h with ⟨j, v, hj, hv, rfl⟩ | h
    · exact .inl ⟨j + 1, v, by simpa using hj, List.mem_cons_of_mem _ hv, by simp [Nat.add_assoc, Nat.add_comm 1 j]⟩
    · rcases Memory.mem_write h with rfl | h
      · exact .inl ⟨0, w, by simp, by simp, rfl⟩
      · exact .inr h

theorem Memory.wf_install : ∀ (image : Image) {m : Memory}, Memory.wf m = true → Memory.wf (install image m) = true
  | [], _, h => h
  | _ :: rest, _, h => Memory.wf_install rest (Memory.wf_write h)

/-- An address that is not listed reads as 0. -/
theorem Memory.read_of_not_mem {m : Memory} {a : Nat} (h : a ∉ m.map Prod.fst) : Memory.read m a = .ofInt 0 := by
  induction m with
  | nil => rfl
  | cons c m ih =>
    obtain ⟨b, v⟩ := c
    simp only [List.map_cons, List.mem_cons, not_or] at h
    simp [Memory.read_cons, h.1, ih h.2]

/-- A property of the entries and of 0 holds of every word that is read. -/
theorem Memory.read_of_all {p : Word → Prop} {m : Memory} (h0 : p (.ofInt 0)) (h : ∀ c ∈ m, p c.2) (a : Nat) :
    p (Memory.read m a) := by
  induction m with
  | nil => exact h0
  | cons c m ih =>
    obtain ⟨b, v⟩ := c
    rw [Memory.read_cons]
    split_ifs
    · exact h (b, v) (by simp)
    · exact ih fun c hc => h c (List.mem_cons_of_mem _ hc)

end Sys2Proof.Machine
end

