-- ==== Sys2Proof/Laws/State.lean ====
section
/-! SUPPORT. One lemma per field per update of the state, so that no proof unfolds a record update. -/

namespace Sys2Proof.Machine

variable (s : State)

@[simp] theorem State.raise_toCoreState (e : ErrorLabel) : (State.raise e s).toCoreState = s.toCoreState := rfl
@[simp] theorem State.raise_variant (e : ErrorLabel) : (State.raise e s).variant = s.variant := rfl
@[simp] theorem State.raise_commands (e : ErrorLabel) : (State.raise e s).commands = s.commands := rfl
@[simp] theorem State.raise_reply (e : ErrorLabel) : (State.raise e s).reply = .outcome (.failed e) := rfl

@[simp] theorem State.succeed_toCoreState (o : Option Text) : (State.succeed o s).toCoreState = s.toCoreState := rfl
@[simp] theorem State.succeed_variant (o : Option Text) : (State.succeed o s).variant = s.variant := rfl
@[simp] theorem State.succeed_commands (o : Option Text) : (State.succeed o s).commands = s.commands := rfl
@[simp] theorem State.succeed_reply (o : Option Text) : (State.succeed o s).reply = .outcome (.ok o) := rfl

@[simp] theorem State.fallThrough_variant (o : Option Text) : (State.fallThrough o s).variant = s.variant := rfl
@[simp] theorem State.fallThrough_commands (o : Option Text) : (State.fallThrough o s).commands = s.commands := rfl
@[simp] theorem State.fallThrough_reply (o : Option Text) : (State.fallThrough o s).reply = .outcome (.ok o) := rfl
@[simp] theorem State.fallThrough_memory (o : Option Text) : (State.fallThrough o s).memory = s.memory := rfl
@[simp] theorem State.fallThrough_acc (o : Option Text) : (State.fallThrough o s).acc = s.acc := rfl
@[simp] theorem State.fallThrough_ic (o : Option Text) : (State.fallThrough o s).ic = s.ic + 1 := rfl
@[simp] theorem State.fallThrough_ir (o : Option Text) : (State.fallThrough o s).ir = s.ir := rfl
@[simp] theorem State.fallThrough_opc (o : Option Text) : (State.fallThrough o s).opc = s.opc := rfl
@[simp] theorem State.fallThrough_opd (o : Option Text) : (State.fallThrough o s).opd = s.opd := rfl
@[simp] theorem State.fallThrough_run (o : Option Text) : (State.fallThrough o s).run = s.run := rfl
@[simp] theorem State.fallThrough_hlt (o : Option Text) : (State.fallThrough o s).hlt = s.hlt := rfl
@[simp] theorem State.fallThrough_fm (o : Option Text) : (State.fallThrough o s).fm = s.fm := rfl
@[simp] theorem State.fallThrough_pend (o : Option Text) : (State.fallThrough o s).pend = s.pend := rfl
@[simp] theorem State.fallThrough_out (o : Option Text) : (State.fallThrough o s).out = s.out := rfl

@[simp] theorem State.jump_variant (t : Nat) : (State.jump t s).variant = s.variant := rfl
@[simp] theorem State.jump_commands (t : Nat) : (State.jump t s).commands = s.commands := rfl
@[simp] theorem State.jump_reply (t : Nat) : (State.jump t s).reply = .outcome (.ok none) := rfl
@[simp] theorem State.jump_memory (t : Nat) : (State.jump t s).memory = s.memory := rfl
@[simp] theorem State.jump_acc (t : Nat) : (State.jump t s).acc = s.acc := rfl
@[simp] theorem State.jump_ic (t : Nat) : (State.jump t s).ic = t := rfl
@[simp] theorem State.jump_ir (t : Nat) : (State.jump t s).ir = s.ir := rfl
@[simp] theorem State.jump_opc (t : Nat) : (State.jump t s).opc = s.opc := rfl
@[simp] theorem State.jump_opd (t : Nat) : (State.jump t s).opd = s.opd := rfl
@[simp] theorem State.jump_run (t : Nat) : (State.jump t s).run = s.run := rfl
@[simp] theorem State.jump_hlt (t : Nat) : (State.jump t s).hlt = s.hlt := rfl
@[simp] theorem State.jump_fm (t : Nat) : (State.jump t s).fm = s.fm := rfl
@[simp] theorem State.jump_pend (t : Nat) : (State.jump t s).pend = s.pend := rfl
@[simp] theorem State.jump_out (t : Nat) : (State.jump t s).out = s.out := rfl

@[simp] theorem State.suspend_variant (k : InputKind) (a : Nat) : (State.suspend k a s).variant = s.variant := rfl
@[simp] theorem State.suspend_commands (k : InputKind) (a : Nat) : (State.suspend k a s).commands = s.commands := rfl
@[simp] theorem State.suspend_reply (k : InputKind) (a : Nat) : (State.suspend k a s).reply = .outcome (.waiting k) := rfl
@[simp] theorem State.suspend_memory (k : InputKind) (a : Nat) : (State.suspend k a s).memory = s.memory := rfl
@[simp] theorem State.suspend_acc (k : InputKind) (a : Nat) : (State.suspend k a s).acc = s.acc := rfl
@[simp] theorem State.suspend_ic (k : InputKind) (a : Nat) : (State.suspend k a s).ic = s.ic := rfl
@[simp] theorem State.suspend_ir (k : InputKind) (a : Nat) : (State.suspend k a s).ir = s.ir := rfl
@[simp] theorem State.suspend_opc (k : InputKind) (a : Nat) : (State.suspend k a s).opc = s.opc := rfl
@[simp] theorem State.suspend_opd (k : InputKind) (a : Nat) : (State.suspend k a s).opd = s.opd := rfl
@[simp] theorem State.suspend_run (k : InputKind) (a : Nat) : (State.suspend k a s).run = s.run := rfl
@[simp] theorem State.suspend_hlt (k : InputKind) (a : Nat) : (State.suspend k a s).hlt = s.hlt := rfl
@[simp] theorem State.suspend_fm (k : InputKind) (a : Nat) : (State.suspend k a s).fm = s.fm := rfl
@[simp] theorem State.suspend_pend (k : InputKind) (a : Nat) : (State.suspend k a s).pend = some { kind := k, target := a } := rfl
@[simp] theorem State.suspend_out (k : InputKind) (a : Nat) : (State.suspend k a s).out = s.out := rfl

@[simp] theorem State.setAcc_variant (x : XNum) : (State.setAcc x s).variant = s.variant := rfl
@[simp] theorem State.setAcc_commands (x : XNum) : (State.setAcc x s).commands = s.commands := rfl
@[simp] theorem State.setAcc_reply (x : XNum) : (State.setAcc x s).reply = s.reply := rfl
@[simp] theorem State.setAcc_memory (x : XNum) : (State.setAcc x s).memory = s.memory := rfl
@[simp] theorem State.setAcc_acc (x : XNum) : (State.setAcc x s).acc = x := rfl
@[simp] theorem State.setAcc_ic (x : XNum) : (State.setAcc x s).ic = s.ic := rfl
@[simp] theorem State.setAcc_ir (x : XNum) : (State.setAcc x s).ir = s.ir := rfl
@[simp] theorem State.setAcc_opc (x : XNum) : (State.setAcc x s).opc = s.opc := rfl
@[simp] theorem State.setAcc_opd (x : XNum) : (State.setAcc x s).opd = s.opd := rfl
@[simp] theorem State.setAcc_run (x : XNum) : (State.setAcc x s).run = s.run := rfl
@[simp] theorem State.setAcc_hlt (x : XNum) : (State.setAcc x s).hlt = s.hlt := rfl
@[simp] theorem State.setAcc_fm (x : XNum) : (State.setAcc x s).fm = s.fm := rfl
@[simp] theorem State.setAcc_pend (x : XNum) : (State.setAcc x s).pend = s.pend := rfl
@[simp] theorem State.setAcc_out (x : XNum) : (State.setAcc x s).out = s.out := rfl

@[simp] theorem State.setWord_variant (a : Nat) (w : Word) : (State.setWord a w s).variant = s.variant := rfl
@[simp] theorem State.setWord_commands (a : Nat) (w : Word) : (State.setWord a w s).commands = s.commands := rfl
@[simp] theorem State.setWord_reply (a : Nat) (w : Word) : (State.setWord a w s).reply = s.reply := rfl
@[simp] theorem State.setWord_memory (a : Nat) (w : Word) : (State.setWord a w s).memory = Memory.write a w s.memory := rfl
@[simp] theorem State.setWord_acc (a : Nat) (w : Word) : (State.setWord a w s).acc = s.acc := rfl
@[simp] theorem State.setWord_ic (a : Nat) (w : Word) : (State.setWord a w s).ic = s.ic := rfl
@[simp] theorem State.setWord_ir (a : Nat) (w : Word) : (State.setWord a w s).ir = s.ir := rfl
@[simp] theorem State.setWord_opc (a : Nat) (w : Word) : (State.setWord a w s).opc = s.opc := rfl
@[simp] theorem State.setWord_opd (a : Nat) (w : Word) : (State.setWord a w s).opd = s.opd := rfl
@[simp] theorem State.setWord_run (a : Nat) (w : Word) : (State.setWord a w s).run = s.run := rfl
@[simp] theorem State.setWord_hlt (a : Nat) (w : Word) : (State.setWord a w s).hlt = s.hlt := rfl
@[simp] theorem State.setWord_fm (a : Nat) (w : Word) : (State.setWord a w s).fm = s.fm := rfl
@[simp] theorem State.setWord_pend (a : Nat) (w : Word) : (State.setWord a w s).pend = s.pend := rfl
@[simp] theorem State.setWord_out (a : Nat) (w : Word) : (State.setWord a w s).out = s.out := rfl

@[simp] theorem State.setWords_variant (a : Nat) (ws : List Word) : (State.setWords a ws s).variant = s.variant := rfl
@[simp] theorem State.setWords_commands (a : Nat) (ws : List Word) : (State.setWords a ws s).commands = s.commands := rfl
@[simp] theorem State.setWords_reply (a : Nat) (ws : List Word) : (State.setWords a ws s).reply = s.reply := rfl
@[simp] theorem State.setWords_memory (a : Nat) (ws : List Word) : (State.setWords a ws s).memory = Memory.writeAll a ws s.memory := rfl
@[simp] theorem State.setWords_acc (a : Nat) (ws : List Word) : (State.setWords a ws s).acc = s.acc := rfl
@[simp] theorem State.setWords_ic (a : Nat) (ws : List Word) : (State.setWords a ws s).ic = s.ic := rfl
@[simp] theorem State.setWords_ir (a : Nat) (ws : List Word) : (State.setWords a ws s).ir = s.ir := rfl
@[simp] theorem State.setWords_opc (a : Nat) (ws : List Word) : (State.setWords a ws s).opc = s.opc := rfl
@[simp] theorem State.setWords_opd (a : Nat) (ws : List Word) : (State.setWords a ws s).opd = s.opd := rfl
@[simp] theorem State.setWords_run (a : Nat) (ws : List Word) : (State.setWords a ws s).run = s.run := rfl
@[simp] theorem State.setWords_hlt (a : Nat) (ws : List Word) : (State.setWords a ws s).hlt = s.hlt := rfl
@[simp] theorem State.setWords_fm (a : Nat) (ws : List Word) : (State.setWords a ws s).fm = s.fm := rfl
@[simp] theorem State.setWords_pend (a : Nat) (ws : List Word) : (State.setWords a ws s).pend = s.pend := rfl
@[simp] theorem State.setWords_out (a : Nat) (ws : List Word) : (State.setWords a ws s).out = s.out := rfl

@[simp] theorem State.append_variant (e : OutEntry) : (State.append e s).variant = s.variant := rfl
@[simp] theorem State.append_commands (e : OutEntry) : (State.append e s).commands = s.commands := rfl
@[simp] theorem State.append_reply (e : OutEntry) : (State.append e s).reply = s.reply := rfl
@[simp] theorem State.append_memory (e : OutEntry) : (State.append e s).memory = s.memory := rfl
@[simp] theorem State.append_acc (e : OutEntry) : (State.append e s).acc = s.acc := rfl
@[simp] theorem State.append_ic (e : OutEntry) : (State.append e s).ic = s.ic := rfl
@[simp] theorem State.append_ir (e : OutEntry) : (State.append e s).ir = s.ir := rfl
@[simp] theorem State.append_opc (e : OutEntry) : (State.append e s).opc = s.opc := rfl
@[simp] theorem State.append_opd (e : OutEntry) : (State.append e s).opd = s.opd := rfl
@[simp] theorem State.append_run (e : OutEntry) : (State.append e s).run = s.run := rfl
@[simp] theorem State.append_hlt (e : OutEntry) : (State.append e s).hlt = s.hlt := rfl
@[simp] theorem State.append_fm (e : OutEntry) : (State.append e s).fm = s.fm := rfl
@[simp] theorem State.append_pend (e : OutEntry) : (State.append e s).pend = s.pend := rfl
@[simp] theorem State.append_out (e : OutEntry) : (State.append e s).out = s.out ++ [e] := rfl

@[simp] theorem State.writeEntry_variant (e : OutEntry) : (State.writeEntry e s).variant = s.variant := rfl
@[simp] theorem State.writeEntry_commands (e : OutEntry) : (State.writeEntry e s).commands = s.commands := rfl
@[simp] theorem State.writeEntry_reply (e : OutEntry) : (State.writeEntry e s).reply = .outcome (.ok (some e.text)) := rfl
@[simp] theorem State.writeEntry_memory (e : OutEntry) : (State.writeEntry e s).memory = s.memory := rfl
@[simp] theorem State.writeEntry_acc (e : OutEntry) : (State.writeEntry e s).acc = s.acc := rfl
@[simp] theorem State.writeEntry_ic (e : OutEntry) : (State.writeEntry e s).ic = s.ic + 1 := rfl
@[simp] theorem State.writeEntry_ir (e : OutEntry) : (State.writeEntry e s).ir = s.ir := rfl
@[simp] theorem State.writeEntry_opc (e : OutEntry) : (State.writeEntry e s).opc = s.opc := rfl
@[simp] theorem State.writeEntry_opd (e : OutEntry) : (State.writeEntry e s).opd = s.opd := rfl
@[simp] theorem State.writeEntry_run (e : OutEntry) : (State.writeEntry e s).run = s.run := rfl
@[simp] theorem State.writeEntry_hlt (e : OutEntry) : (State.writeEntry e s).hlt = s.hlt := rfl
@[simp] theorem State.writeEntry_fm (e : OutEntry) : (State.writeEntry e s).fm = s.fm := rfl
@[simp] theorem State.writeEntry_pend (e : OutEntry) : (State.writeEntry e s).pend = s.pend := rfl
@[simp] theorem State.writeEntry_out (e : OutEntry) : (State.writeEntry e s).out = s.out ++ [e] := rfl

@[simp] theorem State.latch_variant (w : Word) (opc opd : Nat) : (State.latch w opc opd s).variant = s.variant := rfl
@[simp] theorem State.latch_commands (w : Word) (opc opd : Nat) : (State.latch w opc opd s).commands = s.commands := rfl
@[simp] theorem State.latch_reply (w : Word) (opc opd : Nat) : (State.latch w opc opd s).reply = s.reply := rfl
@[simp] theorem State.latch_memory (w : Word) (opc opd : Nat) : (State.latch w opc opd s).memory = s.memory := rfl
@[simp] theorem State.latch_acc (w : Word) (opc opd : Nat) : (State.latch w opc opd s).acc = s.acc := rfl
@[simp] theorem State.latch_ic (w : Word) (opc opd : Nat) : (State.latch w opc opd s).ic = s.ic := rfl
@[simp] theorem State.latch_ir (w : Word) (opc opd : Nat) : (State.latch w opc opd s).ir = w := rfl
@[simp] theorem State.latch_opc (w : Word) (opc opd : Nat) : (State.latch w opc opd s).opc = opc := rfl
@[simp] theorem State.latch_opd (w : Word) (opc opd : Nat) : (State.latch w opc opd s).opd = opd := rfl
@[simp] theorem State.latch_run (w : Word) (opc opd : Nat) : (State.latch w opc opd s).run = true := rfl
@[simp] theorem State.latch_hlt (w : Word) (opc opd : Nat) : (State.latch w opc opd s).hlt = s.hlt := rfl
@[simp] theorem State.latch_fm (w : Word) (opc opd : Nat) : (State.latch w opc opd s).fm = s.fm := rfl
@[simp] theorem State.latch_pend (w : Word) (opc opd : Nat) : (State.latch w opc opd s).pend = s.pend := rfl
@[simp] theorem State.latch_out (w : Word) (opc opd : Nat) : (State.latch w opc opd s).out = s.out := rfl

@[simp] theorem State.resume_variant : (State.resume s).variant = s.variant := rfl
@[simp] theorem State.resume_commands : (State.resume s).commands = s.commands := rfl
@[simp] theorem State.resume_reply : (State.resume s).reply = .outcome (.ok none) := rfl
@[simp] theorem State.resume_memory : (State.resume s).memory = s.memory := rfl
@[simp] theorem State.resume_acc : (State.resume s).acc = s.acc := rfl
@[simp] theorem State.resume_ic : (State.resume s).ic = s.ic + 1 := rfl
@[simp] theorem State.resume_ir : (State.resume s).ir = s.ir := rfl
@[simp] theorem State.resume_opc : (State.resume s).opc = s.opc := rfl
@[simp] theorem State.resume_opd : (State.resume s).opd = s.opd := rfl
@[simp] theorem State.resume_run : (State.resume s).run = s.run := rfl
@[simp] theorem State.resume_hlt : (State.resume s).hlt = s.hlt := rfl
@[simp] theorem State.resume_fm : (State.resume s).fm = s.fm := rfl
@[simp] theorem State.resume_pend : (State.resume s).pend = none := rfl
@[simp] theorem State.resume_out : (State.resume s).out = s.out := rfl

@[simp] theorem State.setFloatMode_variant : (State.setFloatMode s).variant = s.variant := rfl
@[simp] theorem State.setFloatMode_commands : (State.setFloatMode s).commands = s.commands := rfl
@[simp] theorem State.setFloatMode_reply : (State.setFloatMode s).reply = s.reply := rfl
@[simp] theorem State.setFloatMode_memory : (State.setFloatMode s).memory = s.memory := rfl
@[simp] theorem State.setFloatMode_acc : (State.setFloatMode s).acc = s.acc := rfl
@[simp] theorem State.setFloatMode_ic : (State.setFloatMode s).ic = s.ic := rfl
@[simp] theorem State.setFloatMode_ir : (State.setFloatMode s).ir = s.ir := rfl
@[simp] theorem State.setFloatMode_opc : (State.setFloatMode s).opc = s.opc := rfl
@[simp] theorem State.setFloatMode_opd : (State.setFloatMode s).opd = s.opd := rfl
@[simp] theorem State.setFloatMode_run : (State.setFloatMode s).run = s.run := rfl
@[simp] theorem State.setFloatMode_hlt : (State.setFloatMode s).hlt = s.hlt := rfl
@[simp] theorem State.setFloatMode_fm : (State.setFloatMode s).fm = true := rfl
@[simp] theorem State.setFloatMode_pend : (State.setFloatMode s).pend = s.pend := rfl
@[simp] theorem State.setFloatMode_out : (State.setFloatMode s).out = s.out := rfl

@[simp] theorem State.setHalted_variant : (State.setHalted s).variant = s.variant := rfl
@[simp] theorem State.setHalted_commands : (State.setHalted s).commands = s.commands := rfl
@[simp] theorem State.setHalted_reply : (State.setHalted s).reply = s.reply := rfl
@[simp] theorem State.setHalted_memory : (State.setHalted s).memory = s.memory := rfl
@[simp] theorem State.setHalted_acc : (State.setHalted s).acc = s.acc := rfl
@[simp] theorem State.setHalted_ic : (State.setHalted s).ic = s.ic := rfl
@[simp] theorem State.setHalted_ir : (State.setHalted s).ir = s.ir := rfl
@[simp] theorem State.setHalted_opc : (State.setHalted s).opc = s.opc := rfl
@[simp] theorem State.setHalted_opd : (State.setHalted s).opd = s.opd := rfl
@[simp] theorem State.setHalted_run : (State.setHalted s).run = false := rfl
@[simp] theorem State.setHalted_hlt : (State.setHalted s).hlt = true := rfl
@[simp] theorem State.setHalted_fm : (State.setHalted s).fm = s.fm := rfl
@[simp] theorem State.setHalted_pend : (State.setHalted s).pend = s.pend := rfl
@[simp] theorem State.setHalted_out : (State.setHalted s).out = s.out := rfl

@[simp] theorem State.resetCore_toCoreState (r : Reply) : (State.resetCore r s).toCoreState = CoreState.reset := rfl
@[simp] theorem State.resetCore_variant (r : Reply) : (State.resetCore r s).variant = s.variant := rfl
@[simp] theorem State.resetCore_commands (r : Reply) : (State.resetCore r s).commands = s.commands := rfl
@[simp] theorem State.resetCore_reply (r : Reply) : (State.resetCore r s).reply = r := rfl

end Sys2Proof.Machine
end

