-- ==== Sys2Proof/Laws/Ops.lean ====
section
/-! SUPPORT. Everything each shared operation can do: the equations of its cases, and one inversion each for a next
state. -/

namespace Sys2Proof.Machine

variable {s t : State} {a : Nat}

/-! ### Guards and operand forms -/

theorem extendedOnly_basic (h : s.variant = .basic) (k : Result) : extendedOnly s k = .next (s.raise .eOpcode) := by
  simp [extendedOnly, h]

theorem extendedOnly_extended (h : s.variant = .extended) (k : Result) : extendedOnly s k = k := by
  simp [extendedOnly, h]

theorem withAddress_of_lt (h : a < s.variant.words) (k : Result) : withAddress a s k = k := by
  simp [withAddress, h]

theorem withAddress_of_le (h : s.variant.words ≤ a) (k : Result) : withAddress a s k = .next (s.raise .eOperand) := by
  simp [withAddress, Nat.not_lt.mpr h]

theorem withWord_of_lt (h : a < s.variant.words) (k : Word → Result) :
    withWord a s k = k (Memory.read s.memory a) := withAddress_of_lt h _

theorem withWord_of_le (h : s.variant.words ≤ a) (k : Word → Result) :
    withWord a s k = .next (s.raise .eOperand) := withAddress_of_le h _

theorem withNumber_num (h : a < s.variant.words) {x : XNum} (hx : Memory.read s.memory a = .num x)
    (k : XNum → Result) : withNumber a s k = k x := by
  simp [withNumber, withWord_of_lt h, hx]

theorem withNumber_str (h : a < s.variant.words) {u : Text} (hx : Memory.read s.memory a = .str u)
    (k : XNum → Result) : withNumber a s k = .refused .stringOperand := by
  simp [withNumber, withWord_of_lt h, hx]

theorem withNumber_of_le (h : s.variant.words ≤ a) (k : XNum → Result) :
    withNumber a s k = .next (s.raise .eOperand) := withWord_of_le h _

/-- What `withNumber` can answer: the error outside memory, the refusal of a string, or what follows a number. -/
theorem withNumber_cases (k : XNum → Result) :
    (s.variant.words ≤ a ∧ withNumber a s k = .next (s.raise .eOperand)) ∨
    (∃ u, a < s.variant.words ∧ Memory.read s.memory a = .str u ∧ withNumber a s k = .refused .stringOperand) ∨
    ∃ x, a < s.variant.words ∧ Memory.read s.memory a = .num x ∧ withNumber a s k = k x := by
  rcases Nat.lt_or_ge a s.variant.words with h | h
  · cases hx : Memory.read s.memory a with
    | num x => exact .inr (.inr ⟨x, h, rfl, withNumber_num h hx k⟩)
    | str u => exact .inr (.inl ⟨u, h, rfl, withNumber_str h hx k⟩)
  · exact .inl ⟨h, withNumber_of_le h k⟩

/-! ### The ALU -/

theorem aluCommit_of_le {r : Int} (h : r.natAbs ≤ 9999) (s : State) :
    aluCommit r s = .next ((s.setAcc (.ofInt r)).fallThrough none) := by
  simp [aluCommit, overflows, Config.wmax, Nat.not_lt.mpr h]

theorem aluCommit_of_lt {r : Int} (h : 9999 < r.natAbs) (s : State) :
    aluCommit r s = .next (s.raise .eOverflow) := by
  simp [aluCommit, overflows, Config.wmax, h]

theorem arithmetic_extended (h : s.variant = .extended) (f : Int → Int → Int) (g : XNum → XNum → XNum) (m : XNum) :
    arithmetic f g s m = .next ((s.setAcc (g s.acc m)).fallThrough none) := by
  simp [arithmetic, h]

theorem arithmetic_basic (h : s.variant = .basic) (f : Int → Int → Int) (g : XNum → XNum → XNum) {x y : Int}
    (hx : s.acc = .ofInt x) : arithmetic f g s (.ofInt y) = aluCommit (f x y) s := by
  simp [arithmetic, h, hx]

/-- What the arithmetic step can answer: a commit, an overflow, or the fault of a state that is no BASIC core. -/
theorem arithmetic_cases (f : Int → Int → Int) (g : XNum → XNum → XNum) (s : State) (m : XNum) :
    (∃ x, arithmetic f g s m = .next ((s.setAcc x).fallThrough none) ∧
      ((∃ r : Int, x = .ofInt r ∧ r.natAbs ≤ 9999) ∨ s.variant = .extended)) ∨
    arithmetic f g s m = .next (s.raise .eOverflow) ∨
    (arithmetic f g s m = .fault .notABasicWord ∧ s.variant = .basic ∧
      (s.acc.exactInt? = none ∨ m.exactInt? = none)) := by
  cases hv : s.variant with
  | extended => exact .inl ⟨_, arithmetic_extended hv f g m, .inr rfl⟩
  | basic =>
    cases hx : s.acc.exactInt? with
    | none => exact .inr (.inr ⟨by simp [arithmetic, hv, hx], rfl, .inl rfl⟩)
    | some x =>
      cases hy : m.exactInt? with
      | none => exact .inr (.inr ⟨by simp [arithmetic, hv, hx, hy], rfl, .inr rfl⟩)
      | some y =>
        have : arithmetic f g s m = aluCommit (f x y) s := by simp [arithmetic, hv, hx, hy]
        rw [this]
        rcases Nat.lt_or_ge 9999 (f x y).natAbs with h | h
        · exact .inr (.inl (aluCommit_of_lt h s))
        · exact .inl ⟨_, aluCommit_of_le h s, .inl ⟨_, rfl, h⟩⟩

/-! ### Strings -/

/-- What writing a packed string can answer. -/
theorem writePacked_cases (a len : Nat) (s : State) :
    writePacked a len s = .next (s.raise .eOperand) ∨
    (∃ u, writePacked a len s = .next (s.writeEntry (.outStr u))) ∨
    writePacked a len s = .refused .malformedBody ∨ writePacked a len s = .refused .outsideAscii := by
  unfold writePacked
  split_ifs
  · exact .inl rfl
  · split
    · exact .inr (.inr (.inl rfl))
    · split
      · exact .inr (.inr (.inr rfl))
      · exact .inr (.inl ⟨_, rfl⟩)

end Sys2Proof.Machine
end

