-- ==== Sys2Proof/Laws/Exec.lean ====
section
/-! SUPPORT. Everything an instruction can do, said once: the next states of `exec`, its refusals and its faults. -/

namespace Sys2Proof.Machine

/-- The next states of `exec i s`. -/
inductive ExecNext (s : State) : Instr → State → Prop where
  | error (i : Instr) (e : ErrorLabel) : ExecNext s i (s.raise e)
  | read (a : Nat) (ha : a < s.variant.words) : ExecNext s (.read a) (s.suspend .number a)
  | readString (a : Nat) (hv : s.variant = .extended) (ha : a < s.variant.words) :
      ExecNext s (.readString a) (s.suspend .string a)
  | entry (i : Instr) (e : OutEntry) (hi : i.opcode = 11 ∨ i.opcode = 13 ∨ i.opcode = 14) (he : e ≠ .outHalt) :
      ExecNext s i (s.writeEntry e)
  | acc (i : Instr) (x : XNum) (hi : i.writesAcc = true) (hf : i.isFloat = false)
      (hx : (∃ a, Memory.read s.memory a = .num x) ∨ (∃ r : Int, x = .ofInt r ∧ r.natAbs ≤ 9999) ∨
        s.variant = .extended) : ExecNext s i ((s.setAcc x).fallThrough none)
  | accFloat (i : Instr) (x : XNum) (hv : s.variant = .extended) (hi : i.writesAcc = true) (hf : i.isFloat = true) :
      ExecNext s i ((s.setAcc x).setFloatMode.fallThrough none)
  | store (a : Nat) (ha : a < s.variant.words) :
      ExecNext s (.store a) ((s.setWord a (.num s.acc)).fallThrough none)
  | storeFloat (a : Nat) (hv : s.variant = .extended) (ha : a < s.variant.words) :
      ExecNext s (.storeFloat a) ((s.setWord a (.num s.acc)).setFloatMode.fallThrough none)
  | jump (i : Instr) (hj : i.jumps s.acc = true) : ExecNext s i (s.jump i.operand)
  | stay (i : Instr) (hi : i.opcode = 41 ∨ i.opcode = 42) (hj : i.jumps s.acc = false) :
      ExecNext s i (s.fallThrough none)
  | halt (a : Nat) :
      ExecNext s (.halt a) ((s.setHalted.append .outHalt).succeed (some OutEntry.outHalt.text))

/-- What a result has to satisfy: `P` of a next state, `Q` of a refusal, `F` of a fault. -/
def Answers (P : State → Prop) (Q : Refusal → Prop) (F : Fault → Prop) : Result → Prop
  | .next t => P t
  | .refused r => Q r
  | .fault f => F f

section
variable {P : State → Prop} {Q : Refusal → Prop} {F : Fault → Prop} {s : State} {a : Nat}

@[simp] theorem Answers.next_iff {t : State} : Answers P Q F (.next t) ↔ P t := Iff.rfl
@[simp] theorem Answers.refused_iff {r : Refusal} : Answers P Q F (.refused r) ↔ Q r := Iff.rfl
@[simp] theorem Answers.fault_iff {f : Fault} : Answers P Q F (.fault f) ↔ F f := Iff.rfl

theorem Answers.extendedOnly {k : Result} (hb : P (s.raise .eOpcode)) (hk : s.variant = .extended → Answers P Q F k) :
    Answers P Q F (extendedOnly s k) := by
  cases hv : s.variant with
  | basic => rw [extendedOnly_basic hv]; exact hb
  | extended => rw [extendedOnly_extended hv]; exact hk hv

theorem Answers.withAddress {k : Result} (he : P (s.raise .eOperand)) (hk : a < s.variant.words → Answers P Q F k) :
    Answers P Q F (withAddress a s k) := by
  rcases Nat.lt_or_ge a s.variant.words with h | h
  · rw [withAddress_of_lt h]; exact hk h
  · rw [withAddress_of_le h]; exact he

theorem Answers.withNumber {k : XNum → Result} (he : P (s.raise .eOperand))
    (hr : ∀ u, Memory.read s.memory a = .str u → Q .stringOperand)
    (hk : ∀ x, Memory.read s.memory a = .num x → Answers P Q F (k x)) :
    Answers P Q F (withNumber a s k) := by
  rcases withNumber_cases (s := s) (a := a) k with ⟨-, h⟩ | ⟨u, -, hu, h⟩ | ⟨x, -, hx, h⟩ <;> rw [h]
  · exact he
  · exact hr u hu
  · exact hk x hx

theorem Answers.withDivisor {k : XNum → Result} (he : P (s.raise .eOperand)) (hz : P (s.raise .eDivZero))
    (hr : ∀ u, Memory.read s.memory a = .str u → Q .stringOperand)
    (hk : ∀ x, Memory.read s.memory a = .num x → x.isZero = false → Answers P Q F (k x)) :
    Answers P Q F (withDivisor a s k) := by
  refine Answers.withNumber he hr fun x hx => ?_
  cases h : x.isZero with
  | true => simpa [h] using hz
  | false => simpa [h] using hk x hx h

theorem Answers.arithmetic {f : Int → Int → Int} {g : XNum → XNum → XNum} {m : XNum} (ho : P (s.raise .eOverflow))
    (hf : s.variant = .basic → s.acc.exactInt? = none ∨ m.exactInt? = none → F .notABasicWord)
    (hk : ∀ x, ((∃ r : Int, x = .ofInt r ∧ r.natAbs ≤ 9999) ∨ s.variant = .extended) →
      P ((s.setAcc x).fallThrough none)) :
    Answers P Q F (arithmetic f g s m) := by
  rcases arithmetic_cases f g s m with ⟨x, h, hx⟩ | h | ⟨h, hv, hm⟩ <;> rw [h]
  · exact hk x hx
  · exact ho
  · exact hf hv hm

theorem Answers.writePacked {len : Nat} (he : P (s.raise .eOperand)) (hw : ∀ u, P (s.writeEntry (.outStr u)))
    (hr : ∀ r ∈ [Refusal.malformedHeader, .malformedBody, .outsideAscii], Q r) :
    Answers P Q F (writePacked a len s) := by
  rcases writePacked_cases a len s with h | ⟨u, h⟩ | h | h <;> rw [h]
  · exact he
  · exact hw u
  · exact hr _ (by simp)
  · exact hr _ (by simp)

end

/-- Why `exec i s` is refused. -/
def ExecRefused (s : State) (i : Instr) (r : Refusal) : Prop :=
  (r = .stringOperand ∧ i.readsNumber = true ∧ ∃ t, Memory.read s.memory i.operand = .str t) ∨
  (∃ a, i = .writeString a ∧ s.variant = .extended ∧ r ∈ [Refusal.malformedHeader, .malformedBody, .outsideAscii] ∧
    ∃ x, Memory.read s.memory a = .num x)

/-- Why `exec i s` faults. -/
def ExecFault (s : State) (f : Fault) : Prop :=
  f = .notABasicWord ∧ s.variant = .basic ∧
    (s.acc.exactInt? = none ∨ ∃ a m, Memory.read s.memory a = .num m ∧ m.exactInt? = none)

/-- Everything an instruction can do. -/
theorem exec_answers (i : Instr) (s : State) : Answers (ExecNext s i) (ExecRefused s i) (ExecFault s) (exec i s) := by
  have err (e : ErrorLabel) : ExecNext s i (s.raise e) := .error i e
  cases i with
  | read a => exact .withAddress (err _) fun h => .read a h
  | write a =>
    exact .withNumber (err _) (fun u hu => .inl ⟨rfl, rfl, u, hu⟩) fun x _ => .entry _ _ (.inl rfl) (by simp)
  | readString a => exact .extendedOnly (err _) fun hv => .withAddress (err _) fun h => .readString a hv h
  | writeString a =>
    refine .extendedOnly (err _) fun hv => .withAddress (err _) fun h => ?_
    cases hw : Memory.read s.memory a with
    | str u => exact .entry _ _ (.inr (.inl rfl)) (by simp)
    | num x =>
      cases hl : headerLength? x with
      | none => 
        simp only [hl, Answers.refused_iff]
        exact .inr ⟨a, rfl, hv, by simp, x, hw⟩
      | some len =>
        simp only [hl]
        exact .writePacked (err _) (fun u => .entry _ _ (.inr (.inl rfl)) (by simp))
          fun r hr => .inr ⟨a, rfl, hv, hr, x, hw⟩
  | writeNewline a => exact .extendedOnly (err _) fun _ => .entry _ _ (.inr (.inr rfl)) (by simp)
  | load a =>
    exact .withNumber (err _) (fun u hu => .inl ⟨rfl, rfl, u, hu⟩) fun x hx => .acc _ x rfl rfl (.inl ⟨a, hx⟩)
  | store a => exact .withAddress (err _) fun h => .store a h
  | add a | subtract a | multiply a =>
    exact .withNumber (err _) (fun u hu => .inl ⟨rfl, rfl, u, hu⟩) fun m hm =>
      .arithmetic (err _) (fun hv h => ⟨rfl, hv, h.imp id fun h => ⟨a, m, hm, h⟩⟩)
        fun x hx => .acc _ x rfl rfl (.inr hx)
  | divide a =>
    exact .withDivisor (err _) (err _) (fun u hu => .inl ⟨rfl, rfl, u, hu⟩) fun m hm _ =>
      .arithmetic (err _) (fun hv h => ⟨rfl, hv, h.imp id fun h => ⟨a, m, hm, h⟩⟩)
        fun x hx => .acc _ x rfl rfl (.inr hx)
  | modulo a =>
    exact .extendedOnly (err _) fun hv =>
      .withDivisor (err _) (err _) (fun u hu => .inl ⟨rfl, rfl, u, hu⟩) fun m _ _ => .acc _ _ rfl rfl (.inr (.inr hv))
  | power a =>
    exact .extendedOnly (err _) fun hv =>
      .withNumber (err _) (fun u hu => .inl ⟨rfl, rfl, u, hu⟩) fun m _ => .acc _ _ rfl rfl (.inr (.inr hv))
  | branch a => exact .jump _ rfl
  | branchneg a =>
    show Answers _ _ _ (execBranchneg a s)
    cases h : s.acc.isNeg with
    | true =>
      simp only [execBranchneg, h, if_true, Answers.next_iff]
      exact .jump (.branchneg a) h
    | false =>
      simp only [execBranchneg, h, Bool.false_eq_true, if_false, Answers.next_iff]
      exact .stay (.branchneg a) (.inl rfl) h
  | branchzero a =>
    show Answers _ _ _ (execBranchzero a s)
    cases h : s.acc.isZero with
    | true =>
      simp only [execBranchzero, h, if_true, Answers.next_iff]
      exact .jump (.branchzero a) h
    | false =>
      simp only [execBranchzero, h, Bool.false_eq_true, if_false, Answers.next_iff]
      exact .stay (.branchzero a) (.inr rfl) h
  | halt a => exact .halt a
  | loadFloat a =>
    exact .extendedOnly (err _) fun hv =>
      .withNumber (err _) (fun u hu => .inl ⟨rfl, rfl, u, hu⟩) fun x _ => .accFloat _ x hv rfl rfl
  | storeFloat a => exact .extendedOnly (err _) fun hv => .withAddress (err _) fun h => .storeFloat a hv h
  | addFloat a | subtractFloat a | multiplyFloat a =>
    exact .extendedOnly (err _) fun hv =>
      .withNumber (err _) (fun u hu => .inl ⟨rfl, rfl, u, hu⟩) fun x _ => .accFloat _ _ hv rfl rfl
  | divideFloat a =>
    exact .extendedOnly (err _) fun hv =>
      .withDivisor (err _) (err _) (fun u hu => .inl ⟨rfl, rfl, u, hu⟩) fun x _ _ => .accFloat _ _ hv rfl rfl

theorem exec_next {i : Instr} {s t : State} (h : exec i s = .next t) : ExecNext s i t := by
  have := exec_answers i s
  rwa [h] at this

theorem exec_refused {i : Instr} {s : State} {r : Refusal} (h : exec i s = .refused r) : ExecRefused s i r := by
  have := exec_answers i s
  rwa [h] at this

theorem exec_fault {i : Instr} {s : State} {f : Fault} (h : exec i s = .fault f) : ExecFault s f := by
  have := exec_answers i s
  rwa [h] at this

/-- An instruction that transfers control sets IC to its operand and writes nothing else (44_control.md R260 to R262). -/
theorem exec_of_jumps {i : Instr} {s : State} (h : i.jumps s.acc = true) : exec i s = .next (s.jump i.operand) := by
  cases i with
  | branch a => rfl
  | branchneg a => exact if_pos h
  | branchzero a => exact if_pos h
  | _ => simp [Instr.jumps] at h

/-- A conditional branch that is not taken falls through (R261, R262). -/
theorem exec_branchneg_stay {a : Nat} {s : State} (h : s.acc.isNeg = false) :
    exec (.branchneg a) s = .next (s.fallThrough none) := if_neg (by simp [h])

theorem exec_branchzero_stay {a : Nat} {s : State} (h : s.acc.isZero = false) :
    exec (.branchzero a) s = .next (s.fallThrough none) := if_neg (by simp [h])

end Sys2Proof.Machine
end

