-- ==== Sys2Proof/Laws/Format.lean ====
section
/-! SUPPORT. The laws of number texts: the digits the core prints read back as the number (41_io.md R169, R170). -/

namespace Sys2Proof.Machine

theorem isDecimal_digitChar {d : Nat} (h : d < 10) : isDecimal (digitChar d) = true := by
  interval_cases d <;> decide

theorem value_digitChar {d : Nat} (h : d < 10) : (digitChar d).toNat - 48 = d := by
  interval_cases d <;> decide

theorem digit_lt (k m : Nat) : digit k m < 10 := Nat.lt_succ_of_le (digit_le k m)

theorem isDecimalRun_fourDigits (n : Nat) : isDecimalRun (fourDigits n) = true := by
  simp [isDecimalRun, fourDigits, isDecimal_digitChar (digit_lt _ _)]

theorem decimalNat_fourDigits {n : Nat} (h : n ≤ 9999) : decimalNat (fourDigits n) = n := by
  simp only [decimalNat, fourDigits, List.foldl, value_digitChar (digit_lt _ _)]
  have := (four_digits h).1
  omega

theorem isDecimalRun_decimalDigits (n : Nat) : isDecimalRun (decimalDigits n) = true := by
  have hl : decimalDigits n ≠ [] := List.ne_nil_of_length_pos (Nat.length_toDigits_pos (b := 10) (n := n))
  simp only [isDecimalRun, Bool.and_eq_true, Bool.not_eq_true', List.isEmpty_eq_false_iff, List.all_eq_true]
  refine ⟨hl, fun c hc => ?_⟩
  have := Nat.isDigit_of_mem_toDigits (by norm_num) (by norm_num) hc
  simp only [Char.isDigit, Bool.and_eq_true, decide_eq_true_eq] at this
  simp only [isDecimal, Bool.and_eq_true, decide_eq_true_eq]
  exact this

theorem decimalNat_decimalDigits (n : Nat) : decimalNat (decimalDigits n) = n := by
  induction n using Nat.strongRecOn with
  | _ n ih =>
    have key : ∀ d, d < 10 → Nat.digitChar d = digitChar d := by decide
    rcases Nat.lt_or_ge n 10 with h | h
    · rw [decimalDigits, Nat.toDigits_of_lt_base h, key n h]
      simp [decimalNat, value_digitChar h]
    · have hd : n % 10 < 10 := Nat.mod_lt _ (by norm_num)
      have e : decimalDigits n = decimalDigits (n / 10) ++ [digitChar (n % 10)] := by
        rw [decimalDigits, Nat.toDigits_of_base_le (by norm_num) h, key _ hd]; rfl
      rw [e, decimalNat, List.foldl_append]
      have := ih (n / 10) (by omega)
      rw [decimalNat] at this
      rw [this]
      simp only [List.foldl, value_digitChar hd]
      omega

/-- A sign and decimal digits read back as the integer. -/
theorem decimal?_signed {z : Int} {ds : Text} (hr : isDecimalRun ds = true) (hn : decimalNat ds = z.natAbs) :
    decimal? ((if z < 0 then '-' else '+') :: ds) = some z := by
  split_ifs with h <;> simp only [decimal?, hr, hn, if_true, Option.some.injEq] <;> omega

/-- The text of an integer reads back as the integer. -/
theorem decimal?_fmtInt (z : Int) : decimal? (fmtInt z) = some z := by
  rw [fmtInt]
  rcases Nat.lt_or_ge Config.wmax z.natAbs with h | h
  · rw [if_neg (Nat.not_le.mpr h)]
    exact decimal?_signed (isDecimalRun_decimalDigits _) (decimalNat_decimalDigits _)
  · rw [if_pos h]
    exact decimal?_signed (isDecimalRun_fourDigits _) (decimalNat_fourDigits h)

@[simp] theorem fmt_ofInt (z : Int) (fm : Bool) : (XNum.ofInt z).fmt fm = fmtInt z := by simp [XNum.fmt]

/-- The quotient of natural numbers, rounded up where `up` says so, is the floor or the ceiling of the exact quotient. -/
theorem roundedDiv_eq (n d : Nat) (hd : 0 < d) (up : Bool) (r : Nat)
    (hr : r = if n % d = 0 then n / d else n / d + (if up then 1 else 0)) :
    (r : Int) = ⌊(n : Rat) / d⌋ ∨ (r : Int) = ⌈(n : Rat) / d⌉ := by
  have hd' : (0 : Rat) < d := by exact_mod_cast hd
  have hf : ⌊(n : Rat) / d⌋ = ((n / d : Nat) : Int) := by
    have := fdiv_eq_floor n (b := d) (by omega)
    push_cast at this ⊢
    rw [← this, Int.fdiv_eq_ediv]; simp
  subst hr
  split_ifs with h1 h2
  · exact .inl hf.symm
  · right
    symm
    have hm := Nat.div_add_mod n d
    have hlt := Nat.mod_lt n hd
    have h3 : n / d * d < n := by rw [Nat.mul_comm]; omega
    have h4 : n ≤ (n / d + 1) * d := by rw [Nat.add_mul, Nat.mul_comm]; omega
    have h3' : ((n / d : Nat) : Rat) * d < n := by exact_mod_cast h3
    have h4' : (n : Rat) ≤ (((n / d : Nat) : Rat) + 1) * d := by exact_mod_cast h4
    rw [Int.ceil_eq_iff, Int.cast_natCast, Nat.cast_add, Nat.cast_one]
    exact ⟨by rw [lt_div_iff₀ hd']; linarith, by rw [div_le_iff₀ hd']; exact h4'⟩
  · exact .inl (by simpa using hf.symm)

/-- The hundredths printed are those of the magnitude, rounded down or up (41_io.md R170). -/
theorem hundredths_eq (q : Rat) : (hundredths q : Int) = ⌊100 * |q|⌋ ∨ (hundredths q : Int) = ⌈100 * |q|⌉ := by
  have hd : (0 : Rat) < q.den := by exact_mod_cast q.den_pos
  have ha : |(q.num : Rat)| = (q.num.natAbs : Nat) := by rw [Nat.cast_natAbs, Int.cast_abs]
  have e : 100 * |q| = ((q.num.natAbs * 100 : Nat) : Rat) / (q.den : Nat) := by
    conv_lhs => rw [← Rat.num_div_den q]
    rw [abs_div, abs_of_pos hd, ha]
    push_cast
    ring
  rw [e]
  exact roundedDiv_eq _ _ q.den_pos (Config.fmtRoundsUp q) _ rfl

end Sys2Proof.Machine
end

