-- ==== Sys2Proof/Laws/Strings.lean ====
section
/-! SUPPORT. The laws of packed strings (41_io.md R163, R167, R168) and of hexadecimal literals (30_encoding.md R98). -/

namespace Sys2Proof

/-- A further digit of a literal counts 16 times less. -/
theorem hexDigits?_append {c : Char} {k : Nat} (h : hexDigit? c = some k) : ∀ {t : Text} {a n : Nat},
    hexDigits? a t = some n → hexDigits? a (t ++ [c]) = some (16 * n + k)
  | [], _, _, h' => by cases h'; simp [hexDigits?, h, Nat.mul_comm]
  | _ :: _, _, _, h' => by
    simp only [hexDigits?, List.cons_append, Option.bind_eq_some_iff] at h' ⊢
    obtain ⟨x, hx, h''⟩ := h'
    exact ⟨x, hx, hexDigits?_append h h''⟩

namespace Machine

/-- The header word of a packed string of length `len` gives `len` back. -/
@[simp] theorem headerLength?_ofInt (len : Nat) : headerLength? (.ofInt (len * 100 : Nat)) = some len := by
  simp only [headerLength?, XNum.int?_ofInt]
  rw [if_pos (by push_cast; omega)]
  congr 1; push_cast; omega

@[simp] theorem bodyWord?_ofInt (n : Nat) : bodyWord? (.ofInt n) = some n := by
  simp [bodyWord?, Word.ofInt]

/-- Body words that hold natural numbers give them back. -/
@[simp] theorem bodyWords?_ofInt : ∀ ns : List Nat, bodyWords? (ns.map fun (n : Nat) => Word.ofInt n) = some ns
  | [] => rfl
  | n :: ns => by simp only [List.map_cons, bodyWords?, bodyWord?_ofInt, bodyWords?_ofInt ns]

theorem packPairs_length : ∀ ks : List Nat, (packPairs ks).length = bodyLength ks.length
  | [] => rfl
  | [_] => by simp [packPairs, bodyLength]
  | _ :: _ :: ks => by
    simp only [packPairs, List.length_cons, packPairs_length ks, bodyLength]
    omega

theorem isAscii_iff {t : Text} : isAscii t = true ↔ ∀ c ∈ t, c.toNat ≤ 127 := by simp [isAscii]

theorem pack?_of_ascii {t : Text} (h : isAscii t = true) :
    pack? t = some (t.length * 100 :: packPairs (t.map Char.toNat)) := if_pos h

theorem pack?_length {str : Text} {ws : List Nat} (h : pack? str = some ws) :
    ws.length = 1 + bodyLength str.length := by
  unfold pack? at h
  split_ifs at h
  simp only [Option.some.injEq] at h
  subst h
  simp [packPairs_length, Nat.add_comm]

/-- The pairs of codes come apart again when every second code is below 100. -/
theorem unpackCodes_packPairs : ∀ ks : List Nat, (∀ j k, ks[2 * j + 1]? = some k → k < 100) →
    (unpackCodes (packPairs ks)).take ks.length = ks
  | [], _ => rfl
  | [k], _ => by simp [packPairs, unpackCodes]
  | hi :: lo :: ks, h => by
    have h0 : lo < 100 := h 0 lo rfl
    have ih := unpackCodes_packPairs ks fun j k hk => h (j + 1) k (by
      rw [show 2 * (j + 1) + 1 = 2 * j + 1 + 1 + 1 by omega]; simpa using hk)
    simp only [packPairs, unpackCodes, List.length_cons, List.take_succ_cons, ih]
    rw [show (hi * 100 + lo) / 100 = hi by omega, show (hi * 100 + lo) % 100 = lo by omega]

/-- The codes of body words by position (R168). -/
theorem getElem?_unpackCodes : ∀ (ns : List Nat) (i : Nat),
    (unpackCodes ns)[i]? = ns[i / 2]?.map fun n => if i % 2 = 0 then n / 100 else n % 100
  | [], _ => rfl
  | _ :: _, 0 => rfl
  | _ :: _, 1 => rfl
  | n :: ns, i + 2 => by
    rw [unpackCodes, List.getElem?_cons_succ, List.getElem?_cons_succ, getElem?_unpackCodes ns i,
      show (i + 2) / 2 = i / 2 + 1 by omega, show (i + 2) % 2 = i % 2 by omega, List.getElem?_cons_succ]

/-- The first `len` codes of as many body words as `len` needs. -/
theorem take_unpackCodes {len : Nat} {ns : List Nat} (h : ns.length = bodyLength len) :
    (unpackCodes ns).take len = (List.range len).map (packedCode fun j => ns[j]?.getD 0) := by
  apply List.ext_getElem?
  intro i
  rw [List.getElem?_take, List.getElem?_map]
  rcases Nat.lt_or_ge i len with hi | hi
  · have hb : i / 2 < ns.length := by unfold bodyLength at h; omega
    rw [if_pos hi, getElem?_unpackCodes, List.getElem?_range hi, List.getElem?_eq_getElem hb]
    simp [packedCode, List.getElem?_eq_getElem hb]
  · rw [if_neg (Nat.not_lt.mpr hi), List.getElem?_eq_none (by simpa using hi)]; rfl

/-- Unpacking any body words (R168). -/
theorem unpack?_eq {len : Nat} {ns : List Nat} (h : ns.length = bodyLength len) :
    unpack? len ns = if ∀ i, i < len → packedCode (fun j => ns[j]?.getD 0) i ≤ 127 then
      some (packedText len fun j => ns[j]?.getD 0) else none := by
  unfold unpack? packedText
  simp only [take_unpackCodes h, List.all_map, List.map_map, List.all_eq_true, List.mem_range, Function.comp_apply,
    decide_eq_true_eq]
  rfl

theorem packedCode_congr {f g : Nat → Nat} {len : Nat} (h : ∀ j, j < bodyLength len → f j = g j) {i : Nat} (hi : i < len) :
    packedCode f i = packedCode g i := by
  unfold packedCode
  rw [h (i / 2) (by unfold bodyLength; omega)]

theorem packedText_congr {f g : Nat → Nat} {len : Nat} (h : ∀ j, j < bodyLength len → f j = g j) :
    packedText len f = packedText len g :=
  List.map_congr_left fun _ hi => by rw [packedCode_congr h (List.mem_range.mp hi)]

/-- The words of `pack`, by position (R167). -/
theorem getElem?_packPairs : ∀ (ks : List Nat) (j : Nat), j < (packPairs ks).length →
    (packPairs ks)[j]? = some (ks[2 * j]?.getD 65 * 100 + ks[2 * j + 1]?.getD 0)
  | [], j, h => by simp [packPairs] at h
  | [k], j, h => by
    simp only [packPairs, List.length_cons, List.length_nil, Nat.zero_add, Nat.lt_one_iff] at h
    subst h; simp [packPairs]
  | _ :: _ :: _, 0, _ => by simp [packPairs]
  | _ :: _ :: ks, j + 1, h => by
    have ih := getElem?_packPairs ks j (by simpa [packPairs] using h)
    simp only [packPairs, List.getElem?_cons_succ, ih]
    rw [show 2 * (j + 1) = 2 * j + 1 + 1 by omega]; rfl

theorem int?_of_nonIntegral {x : XNum} (h : NonIntegral x) : x.int? = none := by
  rcases h with ⟨q, rfl, hq⟩ | ⟨k, rfl, hk⟩ <;> simp [XNum.int?, *]

theorem headerLength?_of_nonIntegral {x : XNum} (h : NonIntegral x) : headerLength? x = none := by
  simp [headerLength?, int?_of_nonIntegral h]

theorem headerLength?_of_malformed {z : Int} (h : z < 0 ∨ z % 100 ≠ 0) : headerLength? (.ofInt z) = none := by
  simp only [headerLength?, XNum.int?_ofInt]
  rw [if_neg (by omega)]

theorem bodyWord?_of_noBodyWord {w : Word} (h : NoBodyWord w) : bodyWord? w = none := by
  rcases h with ⟨t, rfl⟩ | ⟨z, rfl, hz⟩ | ⟨x, rfl, hx⟩
  · rfl
  · simp [bodyWord?, Word.ofInt, Int.not_le.mpr hz]
  · simp [bodyWord?, int?_of_nonIntegral hx]

/-- One word that is no body word makes the whole body malformed (R163). -/
theorem bodyWords?_of_mem {w : Word} : ∀ {ws : List Word}, w ∈ ws → bodyWord? w = none → bodyWords? ws = none
  | v :: ws, h, hw => by
    rcases List.mem_cons.mp h with rfl | h
    · simp [bodyWords?, hw]
    · simp only [bodyWords?, bodyWords?_of_mem h hw]
      cases bodyWord? v <;> rfl

end Machine
end Sys2Proof
end

