-- ==== Sys2Proof/Laws/Step.lean ====
section
/-! SUPPORT. Everything a STEP and a step can do: the equations of the STEP frame, and one inversion each for the other
commands. -/

namespace Sys2Proof.Machine

variable {s t : State}

/-! ### Control states -/

theorem control_eq_ready : s.control = .ready ↔ s.hlt = false ∧ s.pend = none := by
  unfold State.control
  cases s.hlt <;> cases s.pend <;> simp

theorem stepping_iff : Stepping s ↔ s.commands = [] ∧ s.hlt = false ∧ s.pend = none :=
  ⟨fun h => ⟨h.queue, control_eq_ready.mp h.ready⟩, fun h => ⟨h.1, control_eq_ready.mpr h.2⟩⟩

/-! ### The queue -/

theorem nextCommand_nil (h : s.commands = []) : nextCommand s = (.step, s) := by simp [nextCommand, h]

theorem nextCommand_cons {c : Command} {cs : List Command} (h : s.commands = c :: cs) :
    nextCommand s = (c, { s with commands := cs }) := by simp [nextCommand, h]

theorem step_nil (h : s.commands = []) : step s = stepCommand s := by simp [step, nextCommand_nil h, runCommand]

theorem step_cons {c : Command} {cs : List Command} (h : s.commands = c :: cs) :
    step s = runCommand c { s with commands := cs } := by simp [step, nextCommand_cons h]

/-- Taking a command off the queue changes nothing else. -/
@[simp] theorem nextCommand_toCoreState (s : State) : (nextCommand s).2.toCoreState = s.toCoreState := by
  unfold nextCommand; split <;> rfl

@[simp] theorem nextCommand_variant (s : State) : (nextCommand s).2.variant = s.variant := by
  unfold nextCommand; split <;> rfl

@[simp] theorem nextCommand_fetched (s : State) : (nextCommand s).2.fetched = s.fetched := by
  simp [State.fetched]

/-! ### The STEP frame -/

/-- The no-op STEP (40_cycle.md R131). -/
theorem stepCommand_noop (h : s.hlt = true ∨ s.pend ≠ none) : stepCommand s = .next (s.succeed none) := by
  have : (s.hlt || s.pend.isSome) = true := by
    rcases h with h | h
    · simp [h]
    · simp [Option.isSome_iff_ne_none.mpr h]
  simp [stepCommand, this]

theorem stepCommand_ready (h1 : s.hlt = false) (h2 : s.pend = none) : stepCommand s = fetchAndExecute s := by
  simp [stepCommand, h1, h2]

/-- `E_COUNTER` (40_cycle.md R133). -/
theorem fetchAndExecute_outside (h : s.variant.words ≤ s.ic) :
    fetchAndExecute s = .next ({ s with run := true }.raise .eCounter) := by
  simp [fetchAndExecute, Nat.not_lt.mpr h]

theorem fetchAndExecute_inside (h : s.ic < s.variant.words) : fetchAndExecute s = executeWord s.fetched s := by
  simp [fetchAndExecute, h, State.fetched]

theorem executeWord_ok {w : Word} {i : Instr} (h : decode w = .ok i) :
    executeWord w s = exec i (s.latch w i.opcode i.operand) := by
  obtain ⟨z, hz, hs⟩ := decode_eq_ok.mp h
  simp [executeWord, hz, hs]

theorem executeWord_noValue {w : Word} (h : w.int? = none) :
    executeWord w s = .next ((s.latch w s.opc s.opd).raise .eOpcode) := by
  simp [executeWord, h]

theorem executeWord_noRow {w : Word} {z : Int} (h : w.int? = some z)
    (hn : z.natAbs / 100 ∉ Variant.extended.opcodes) :
    executeWord w s = .next ((s.latch w (z.natAbs / 100) (z.natAbs % 100)).raise .eOpcode) := by
  have : instrOf (splitInt z).1 (splitInt z).2 = none := instrOf_eq_none.mpr (by simpa [splitInt_fst] using hn)
  simp only [executeWord, h, this]
  rfl

/-- Everything decoding and dispatching a fetched word can do. -/
theorem executeWord_cases (w : Word) (s : State) :
    (∃ opc opd, executeWord w s = .next ((s.latch w opc opd).raise .eOpcode) ∧ (s.variant = .basic → wordOk .basic w = true →
      opc < 100) ∧ (s.opd < 100 → opd < 100)) ∨
    ∃ i, decode w = .ok i ∧ executeWord w s = exec i (s.latch w i.opcode i.operand) := by
  cases hz : w.int? with
  | none =>
    refine .inl ⟨s.opc, s.opd, executeWord_noValue hz, ?_, id⟩
    intro _ hw
    exfalso
    cases w with
    | str u => simp [wordOk] at hw
    | num x =>
      simp only [wordOk, numberOk] at hw
      cases hx : x.exactInt? with
      | none => simp [hx] at hw
      | some z => rw [XNum.eq_ofInt_of_exactInt? hx] at hz; simp [Word.int?] at hz
  | some z =>
    by_cases hm : z.natAbs / 100 ∈ Variant.extended.opcodes
    · right
      cases hi : instrOf (splitInt z).1 (splitInt z).2 with
      | none => exact absurd hm (by simpa [splitInt_fst] using instrOf_eq_none.mp hi)
      | some i =>
        have : decode w = .ok i := by rw [decode_of_int? hz, hi]
        exact ⟨i, this, executeWord_ok this⟩
    · left
      refine ⟨_, _, executeWord_noRow hz hm, ?_, fun _ => by omega⟩
      intro _ hw
      cases w with
      | str u => simp [wordOk] at hw
      | num x =>
        simp only [wordOk, numberOk] at hw
        cases hx : x.exactInt? with
        | none => simp [hx] at hw
        | some y =>
          rw [XNum.eq_ofInt_of_exactInt? hx] at hz
          simp only [Word.int?, XNum.int?_ofInt, Option.some.injEq] at hz
          subst hz
          simp only [hx, inBasicRange_iff] at hw
          omega

/-- Everything a STEP that fetches can do. -/
theorem fetchAndExecute_cases (s : State) :
    (s.variant.words ≤ s.ic ∧ fetchAndExecute s = .next ({ s with run := true }.raise .eCounter)) ∨
    (s.ic < s.variant.words ∧ ∃ opc opd,
      fetchAndExecute s = .next ((s.latch s.fetched opc opd).raise .eOpcode) ∧
      (s.variant = .basic → wordOk .basic s.fetched = true → opc < 100) ∧ (s.opd < 100 → opd < 100)) ∨
    (s.ic < s.variant.words ∧ ∃ i, decode s.fetched = .ok i ∧
      fetchAndExecute s = exec i (s.latch s.fetched i.opcode i.operand)) := by
  rcases Nat.lt_or_ge s.ic s.variant.words with h | h
  · rw [fetchAndExecute_inside h]
    rcases executeWord_cases s.fetched s with h' | h'
    · exact .inr (.inl ⟨h, h'⟩)
    · exact .inr (.inr ⟨h, h'⟩)
  · exact .inl ⟨h, fetchAndExecute_outside h⟩

/-- Everything a STEP answers with a next state. -/
inductive StepNext (s : State) : State → Prop where
  | noop (h : s.hlt = true ∨ s.pend ≠ none) : StepNext s (s.succeed none)
  | counter (h1 : s.hlt = false) (h2 : s.pend = none) (h : s.variant.words ≤ s.ic) :
      StepNext s ({ s with run := true }.raise .eCounter)
  | opcode (h1 : s.hlt = false) (h2 : s.pend = none) (h : s.ic < s.variant.words) (opc opd : Nat)
      (ho : s.variant = .basic → wordOk .basic s.fetched = true → opc < 100) (hd : s.opd < 100 → opd < 100) :
      StepNext s ((s.latch s.fetched opc opd).raise .eOpcode)
  | exec (h1 : s.hlt = false) (h2 : s.pend = none) (h : s.ic < s.variant.words) (i : Instr) (t : State)
      (hi : decode s.fetched = .ok i) (he : exec i (s.latch s.fetched i.opcode i.operand) = .next t)
      (ht : ExecNext (s.latch s.fetched i.opcode i.operand) i t) : StepNext s t

theorem stepCommand_next (h : stepCommand s = .next t) : StepNext s t := by
  by_cases hn : s.hlt = true ∨ s.pend ≠ none
  · rw [stepCommand_noop hn] at h; cases h; exact .noop hn
  · simp only [not_or, Bool.not_eq_true, not_not] at hn
    obtain ⟨h1, h2⟩ := hn
    rw [stepCommand_ready h1 h2] at h
    rcases fetchAndExecute_cases s with ⟨hi, he⟩ | ⟨hi, opc, opd, he, ho, hd⟩ | ⟨hi, i, hd, he⟩ <;> rw [he] at h
    · cases h; exact .counter h1 h2 hi
    · cases h; exact .opcode h1 h2 hi opc opd ho hd
    · exact .exec h1 h2 hi i t hd h (exec_next h)

/-- A STEP that does not answer a next state runs a decoded instruction. -/
theorem stepCommand_stops (h : ∀ t, stepCommand s ≠ .next t) :
    s.hlt = false ∧ s.pend = none ∧ s.ic < s.variant.words ∧ ∃ i, decode s.fetched = .ok i ∧
      stepCommand s = exec i (s.latch s.fetched i.opcode i.operand) := by
  by_cases hn : s.hlt = true ∨ s.pend ≠ none
  · exact absurd (stepCommand_noop hn) (h _)
  · simp only [not_or, Bool.not_eq_true, not_not] at hn
    obtain ⟨h1, h2⟩ := hn
    rw [stepCommand_ready h1 h2] at h ⊢
    rcases fetchAndExecute_cases s with ⟨-, he⟩ | ⟨-, _, _, he, -⟩ | ⟨hi, i, hd, he⟩
    · exact absurd he (h _)
    · exact absurd he (h _)
    · exact ⟨h1, h2, hi, i, hd, he⟩

/-- No instruction reads the reply of the command before it. -/
theorem exec_reply (i : Instr) (s : State) (r : Reply) : exec i { s with reply := r } = exec i s := by
  cases i <;> rfl

/-- No STEP reads the reply of the command before it. -/
theorem stepCommand_reply (s : State) (r : Reply) : stepCommand { s with reply := r } = stepCommand s := by
  unfold stepCommand fetchAndExecute executeWord
  simp only
  split
  · rfl
  · split
    · split
      · rfl
      · split
        · rfl
        · exact exec_reply _ (s.latch _ _ _) r
    · rfl

/-- A state that steps to itself is where every run from it stays. -/
theorem run_of_fixed {M : Host.Core} {s : M.State} (h : M.step s = .next s) : ∀ n, M.run n s = .next s
  | 0 => rfl
  | n + 1 => by simp [Host.Core.run, h, run_of_fixed h n]

/-! ### PROVIDE_INPUT -/

/-- Everything PROVIDE_INPUT can do. -/
inductive InputResult (s : State) : Result → Prop where
  | error (e : ErrorLabel) : InputResult s (.next (s.raise e))
  | number (p : Pending) (x : XNum) (hp : s.pend = some p) (hk : p.kind = .number)
      (hx : validNumber s.variant x = true) (ht : p.target < s.variant.words) :
      InputResult s (.next (s.setWord p.target (.num x)).resume)
  | string (p : Pending) (ws : List Nat) (hp : s.pend = some p) (hk : p.kind = .string)
      (ht : p.target + ws.length ≤ s.variant.words) :
      InputResult s (.next (s.setWords p.target (ws.map fun (n : Nat) => Word.ofInt n)).resume)
  | fault (p : Pending) (hp : s.pend = some p) (ht : s.variant.words ≤ p.target) :
      InputResult s (.fault .addressOutsideMemory)
  | refused (p : Pending) (hp : s.pend = some p) (hk : p.kind = .string) : InputResult s (.refused .outsideAscii)

theorem provideInput_cases (v : InputValue) (s : State) : InputResult s (provideInput v s) := by
  unfold provideInput
  split
  · exact .error _
  · rename_i p hp
    split
    · rename_i x hk
      unfold provideNumber
      split_ifs with h1 h2
      · exact .number p x hp hk h1 h2
      · exact .fault p hp (Nat.not_lt.mp h2)
      · exact .error _
    · exact .error _
    · rename_i str hk
      unfold provideString
      split
      · exact .refused p hp hk
      · rename_i ws hw
        split_ifs with h
        · exact .error _
        · refine .string p ws hp hk ?_
          have := pack?_length hw
          have := s.variant.words_ge
          omega
    · exact .error _

/-! ### LOAD -/

/-- A load is either a failure, which leaves the reset state, or a valid image that is installed. -/
theorem loadImage_cases (image : Image) (s : State) :
    (∃ e n, loadImage image s = s.resetCore (.loadFailed e n)) ∨
    (firstError? s.variant 0 image = none ∧
      loadImage image s = { s.resetCore .loaded with memory := install image [] }) := by
  unfold loadImage
  split
  · exact .inl ⟨_, _, rfl⟩
  · exact .inr ⟨by assumption, rfl⟩

theorem loadText_cases (u : Text) (s : State) :
    (∃ e n, loadText u s = s.resetCore (.loadFailed e n)) ∨
    ∃ image, firstError? s.variant 0 image = none ∧
      loadText u s = { s.resetCore .loaded with memory := install image [] } := by
  unfold loadText
  split
  · exact .inl ⟨_, _, rfl⟩
  · rename_i image _
    rcases loadImage_cases image s with h | h
    · exact .inl h
    · exact .inr ⟨image, h⟩

/-- An image has no failing entry exactly when every entry passes. -/
theorem firstError?_eq_none {v : Variant} : ∀ {image : Image} {n : Nat},
    firstError? v n image = none ↔ ∀ e ∈ image, entryError? v e = none
  | [], n => by simp [firstError?]
  | e :: rest, n => by
    simp only [firstError?, List.mem_cons, forall_eq_or_imp]
    cases h : entryError? v e with
    | none => simp [firstError?_eq_none (image := rest)]
    | some l => simp

/-- The first failing entry after passing ones is the one reported, with its position. -/
theorem firstError?_append {v : Variant} {bad : Int × ImageValue} {l : ErrorLabel} (hb : entryError? v bad = some l)
    (rest : Image) : ∀ {good : Image} {n : Nat}, (∀ e ∈ good, entryError? v e = none) →
    firstError? v n (good ++ bad :: rest) = some (l, n + good.length)
  | [], n, _ => by simp [firstError?, hb]
  | e :: good, n, h => by
    have he : entryError? v e = none := h e (by simp)
    simp only [List.cons_append, firstError?, he, List.length_cons]
    rw [firstError?_append hb rest fun e he => h e (by simp [he])]
    simp [Nat.add_assoc, Nat.add_comm 1]

/-- What an entry that passes is. -/
theorem entryError?_eq_none {v : Variant} {e : Int × ImageValue} (h : entryError? v e = none) :
    0 ≤ e.1 ∧ e.1 < v.words ∧ wordOk v e.2.word = true := by
  unfold entryError? at h
  split_ifs at h with hr
  rw [not_or, not_lt, not_le] at hr
  refine ⟨hr.1, hr.2, ?_⟩
  cases v <;> cases he : e.2 <;> simp only [he] at h <;>
    simp_all [ImageValue.word, wordOk, numberOk, Word.ofInt, Option.isSome_iff_ne_none]

/-- An entry passes exactly when address and value are in range (70_reset_and_hazards.md R332 to R334). -/
theorem loadableEntry_iff {v : Variant} {e : Int × ImageValue} : LoadableEntry v e ↔ entryError? v e = none := by
  obtain ⟨a, x⟩ := e
  constructor
  · rintro ⟨h1, h2, h3⟩
    unfold entryError?
    simp only at h1 h2 h3 ⊢
    rw [if_neg (by omega)]
    cases v with
    | basic => obtain ⟨z, rfl, hz⟩ := h2 rfl; simp [inBasicRange_iff]; omega
    | extended =>
      cases x with
      | dec z => rfl
      | hex t => obtain ⟨n, hn⟩ := h3 rfl t rfl; simp [hn]
  · intro h
    unfold entryError? at h
    split_ifs at h with hr
    simp only at hr
    refine ⟨by simp only; omega, ?_, ?_⟩
    · rintro rfl
      cases x with
      | dec z =>
        simp only at h
        split_ifs at h with hz
        exact ⟨z, rfl, by have := inBasicRange_iff.mp hz; omega⟩
      | hex t => simp at h
    · rintro rfl t ht
      simp only at ht; subst ht
      simp only at h
      split_ifs at h with hz
      exact Option.isSome_iff_exists.mp hz

/-- Every address reads as the last word the image names for it, and as before where it names none
(70_reset_and_hazards.md R335). -/
theorem Memory.read_install : ∀ (image : Image) (m : Memory) (a : Nat), (∀ e ∈ image, 0 ≤ e.1) →
    Memory.read (install image m) a =
      match image.reverse.find? fun e => e.1 = (a : Int) with
      | some e => e.2.word
      | none => Memory.read m a
  | [], _, _, _ => rfl
  | e :: rest, m, a, hp => by
    rw [install, Memory.read_install rest _ _ fun e he => hp e (by simp [he]), List.reverse_cons, List.find?_append]
    have h0 := hp e (by simp)
    cases hf : rest.reverse.find? fun e => e.1 = (a : Int) with
    | some x => simp
    | none =>
      simp only [Option.none_or]
      rw [Memory.read_write, List.find?_cons]
      by_cases hc : e.1 = (a : Int)
      · rw [if_pos (by omega)]; simp [hc]
      · rw [if_neg (by omega)]; simp [hc]

theorem Memory.mem_install : ∀ {image : Image} {m : Memory} {c : Nat × Word}, c ∈ install image m →
    (∃ e ∈ image, c = (e.1.toNat, e.2.word)) ∨ c ∈ m
  | [], _, _, h => .inr h
  | e :: rest, m, c, h => by
    rcases Memory.mem_install (image := rest) h with ⟨e', he', rfl⟩ | h
    · exact .inl ⟨e', by simp [he'], rfl⟩
    · rcases Memory.mem_write h with rfl | h
      · exact .inl ⟨e, by simp, rfl⟩
      · exact .inr h

end Sys2Proof.Machine
end

