-- ==== Sys2Proof/Laws/Invariant.lean ====
section
/-! SUPPORT. The small laws of the invariants of Safety.lean, and a check that a concrete state satisfies them. -/

namespace Sys2Proof.Machine

variable {s t : State}

/-- The invariants are about the architectural state and the variant only. -/
theorem Inv.congr (hi : Inv s) (h : t.toCoreState = s.toCoreState) (hv : t.variant = s.variant) : Inv t := by
  obtain ⟨core, v, c, r⟩ := t
  simp only at h hv
  subst h hv
  exact ⟨hi.1, hi.2, hi.3, hi.4, hi.5, hi.6, hi.7, hi.8, hi.9, hi.10, hi.11, hi.12⟩

theorem Inv.nextCommand (hi : Inv s) : Inv (nextCommand s).2 := hi.congr (by simp) (by simp)

/-- Every word of the memory is a word of the variant, the unlisted ones too (10_state.md R35). -/
theorem Inv.word (hi : Inv s) (a : Nat) : wordOk s.variant (Memory.read s.memory a) = true :=
  Memory.read_of_all (p := fun w => wordOk s.variant w = true) (wordOk_zero _) hi.memory_words _

/-- No instruction faults where ACC and the words are those of the variant. -/
theorem Inv.not_execFault {f : Fault} (hi : Inv s) : ¬ExecFault s f := by
  rintro ⟨-, hv, h | ⟨a, m, ha, h⟩⟩
  · have := hi.acc_ok
    rw [hv] at this
    obtain ⟨z, hz, -⟩ := numberOk_basic.mp this
    simp [hz] at h
  · have := hi.word a
    rw [hv, ha] at this
    obtain ⟨z, hz, -⟩ := numberOk_basic.mp this
    simp [hz] at h

/-- No command changes the variant (00_scope.md R2). -/
theorem runCommand_variant {c : Command} (h : runCommand c s = .next t) : t.variant = s.variant := by
  cases c with
  | reset => cases h; rfl
  | snapshot => cases h; rfl
  | load image =>
    simp only [runCommand, Host.Outcome.next.injEq] at h
    rcases loadImage_cases image s with ⟨e, n, h'⟩ | ⟨-, h'⟩ <;> rw [← h, h'] <;> rfl
  | loadText u =>
    simp only [runCommand, Host.Outcome.next.injEq] at h
    rcases loadText_cases u s with ⟨e, n, h'⟩ | ⟨_, -, h'⟩ <;> rw [← h, h'] <;> rfl
  | step =>
    cases stepCommand_next h with
    | exec _ _ _ i t hd hx hn => cases hn <;> rfl
    | _ => rfl
  | provideInput v =>
    have := provideInput_cases v s
    rw [show provideInput v s = .next t from h] at this
    cases this <;> rfl

/-- What R35.5 says of a pending request, as a test. -/
def pendingOk (s : State) (p : Pending) : Bool :=
  s.ic < s.variant.words && s.ir = Memory.read s.memory s.ic && p.target = s.opd && s.opc = p.instr.opcode &&
    (match decode s.ir with | .ok i => i = p.instr | .error _ => false) && p.instr.inTable s.variant

/-- The invariants as a test of a concrete state. -/
def invOk (s : State) : Bool :=
  Memory.wf s.memory && s.memory.all (fun c => c.1 < s.variant.words && wordOk s.variant c.2) &&
    numberOk s.variant s.acc && wordOk s.variant s.ir && s.ic ≤ s.variant.words && s.opd < 100 &&
    (s.variant != .basic || (s.opc < 100 && !s.fm)) && (!s.hlt || (!s.run && s.pend.isNone)) &&
    s.pend.all (pendingOk s)

theorem inv_of_ok (h : invOk s = true) : Inv s := by
  simp only [invOk, Bool.and_eq_true, List.all_eq_true, decide_eq_true_eq, Bool.or_eq_true, bne_iff_ne, ne_eq,
    Bool.not_eq_true'] at h
  obtain ⟨⟨⟨⟨⟨⟨⟨⟨h1, h2⟩, h3⟩, h4⟩, h5⟩, h6⟩, h7⟩, h8⟩, h9⟩ := h
  refine ⟨h1, fun c hc => (h2 c hc).1, fun c hc => (h2 c hc).2, h3, h4, h5, ?_, h6, ?_, ?_, ?_, ?_⟩
  · intro hv; exact (h7.resolve_left (not_not_intro hv)).1
  · intro hv; exact (h7.resolve_left (not_not_intro hv)).2
  · intro hh; exact (h8.resolve_left (by simp [hh])).1
  · intro hh; exact Option.isNone_iff_eq_none.mp (h8.resolve_left (by simp [hh])).2
  · intro p hp
    rw [hp] at h9
    simp only [Option.all_some, pendingOk, Bool.and_eq_true, decide_eq_true_eq] at h9
    obtain ⟨⟨⟨⟨⟨a1, a2⟩, a3⟩, a4⟩, a5⟩, a6⟩ := h9
    refine ⟨a1, a2, a3, a4, ?_, a6⟩
    split at a5
    · rename_i i hi; rw [hi, of_decide_eq_true a5]
    · cases a5

end Sys2Proof.Machine
end

