-- ==== Sys2Proof/Laws/PerInstr.lean ====
section
/-! SUPPORT. What holds of every instruction as syntax, one lemma per constructor: the opcode is in the EXTENDED table, and
the encoded word of a well-formed instruction lies in the decimal range of its row (30_encoding.md R92, R94, R95). -/

namespace Sys2Proof.Laws.Row

/-- The row of an instruction: its opcode is one of the EXTENDED table, its word lies in `OO00..OO99`, is at most a BASIC
word, and splits into the opcode and the operand. -/
def Statement (i : Instr) : Prop :=
  i.opcode ∈ Variant.extended.opcodes ∧
    (i.wellFormed = true → i.opcode * 100 ≤ encode i ∧ encode i ≤ i.opcode * 100 + 99 ∧ (encode i).natAbs ≤ Config.wmax ∧
      splitInt (encode i) = (i.opcode, i.operand))

/-- The part common to all rows. -/
theorem of_mem {i : Instr} (h : i.opcode ∈ Variant.extended.opcodes) : Statement i := by
  refine ⟨h, fun hw => ?_⟩
  have ho : i.operand < 100 := of_decide_eq_true hw
  have := i.opcode_le
  refine ⟨?_, ?_, ?_, (splitInt_encode hw).1⟩ <;> simp only [encode, Config.opdiv, Config.wmax] <;> omega

theorem read (a : Nat) : Statement (.read a) := of_mem (by simp [Instr.opcode, Variant.opcodes])
theorem write (a : Nat) : Statement (.write a) := of_mem (by simp [Instr.opcode, Variant.opcodes])
theorem readString (a : Nat) : Statement (.readString a) := of_mem (by simp [Instr.opcode, Variant.opcodes])
theorem writeString (a : Nat) : Statement (.writeString a) := of_mem (by simp [Instr.opcode, Variant.opcodes])
theorem writeNewline (a : Nat) : Statement (.writeNewline a) := of_mem (by simp [Instr.opcode, Variant.opcodes])
theorem load (a : Nat) : Statement (.load a) := of_mem (by simp [Instr.opcode, Variant.opcodes])
theorem store (a : Nat) : Statement (.store a) := of_mem (by simp [Instr.opcode, Variant.opcodes])
theorem add (a : Nat) : Statement (.add a) := of_mem (by simp [Instr.opcode, Variant.opcodes])
theorem subtract (a : Nat) : Statement (.subtract a) := of_mem (by simp [Instr.opcode, Variant.opcodes])
theorem divide (a : Nat) : Statement (.divide a) := of_mem (by simp [Instr.opcode, Variant.opcodes])
theorem multiply (a : Nat) : Statement (.multiply a) := of_mem (by simp [Instr.opcode, Variant.opcodes])
theorem modulo (a : Nat) : Statement (.modulo a) := of_mem (by simp [Instr.opcode, Variant.opcodes])
theorem power (a : Nat) : Statement (.power a) := of_mem (by simp [Instr.opcode, Variant.opcodes])
theorem branch (a : Nat) : Statement (.branch a) := of_mem (by simp [Instr.opcode, Variant.opcodes])
theorem branchneg (a : Nat) : Statement (.branchneg a) := of_mem (by simp [Instr.opcode, Variant.opcodes])
theorem branchzero (a : Nat) : Statement (.branchzero a) := of_mem (by simp [Instr.opcode, Variant.opcodes])
theorem halt (a : Nat) : Statement (.halt a) := of_mem (by simp [Instr.opcode, Variant.opcodes])
theorem loadFloat (a : Nat) : Statement (.loadFloat a) := of_mem (by simp [Instr.opcode, Variant.opcodes])
theorem storeFloat (a : Nat) : Statement (.storeFloat a) := of_mem (by simp [Instr.opcode, Variant.opcodes])
theorem addFloat (a : Nat) : Statement (.addFloat a) := of_mem (by simp [Instr.opcode, Variant.opcodes])
theorem subtractFloat (a : Nat) : Statement (.subtractFloat a) := of_mem (by simp [Instr.opcode, Variant.opcodes])
theorem divideFloat (a : Nat) : Statement (.divideFloat a) := of_mem (by simp [Instr.opcode, Variant.opcodes])
theorem multiplyFloat (a : Nat) : Statement (.multiplyFloat a) := of_mem (by simp [Instr.opcode, Variant.opcodes])

end Sys2Proof.Laws.Row
end

