-- ==== Sys2Proof/Tests/Slice0.lean ====
section
/-! SUPPORT. The model's own tests: the smoke tests of WellFormed, one word per constructor written out from the encoding
of the spec, single steps from the vectors of 95_test_vectors.md (named in each comment), and for every statement with
hypotheses a state that meets them. Expected values are the spec's. -/

namespace Sys2Proof.Tests

open Sys2Proof.Machine

/-! ### Helpers -/

/-- A rational written as numerator and denominator, so that tests need no division. -/
def frac (n : Int) (d : Nat) (hd : d ≠ 0 := by decide) (hc : n.natAbs.Coprime d := by decide) : XNum := .rat ⟨n, d, hd, hc⟩

/-- A cell that holds an integer. -/
def cell (a : Nat) (z : Int) : Nat × Word := (a, .ofInt z)

/-- A core at its reset values but for the memory, ACC and IC. -/
def coreAt (v : Variant) (m : Memory) (acc : XNum) (ic : Nat) : State :=
  { State.resetOf v with memory := m, acc := acc, ic := ic }

/-- The same core with a command of the host first. -/
def withCommand (c : Command) (s : State) : State := { s with commands := [c] }

/-- The same core with a request outstanding. -/
def awaiting (kind : InputKind) (target : Nat) (s : State) : State := { s with pend := some ⟨kind, target⟩ }

/-- Whether a result is a next state that passes a test. -/
def nextPasses (p : State → Bool) : Result → Bool
  | .next t => p t
  | .fault _ => false
  | .refused _ => false

/-- Whether a result is a given refusal. -/
def isRefused (r : Refusal) : Result → Bool
  | .next _ => false
  | .fault _ => false
  | .refused q => q = r

theorem exists_next {r : Result} {p : State → Bool} (h : nextPasses p r = true) : ∃ t, r = .next t ∧ p t = true := by
  cases r with
  | next t => exact ⟨t, rfl, h⟩
  | fault f => cases h
  | refused q => cases h

theorem eq_refused {r : Result} {q : Refusal} (h : isRefused q r = true) : r = .refused q := by
  cases r with
  | next t => cases h
  | fault f => cases h
  | refused x => exact congrArg _ (of_decide_eq_true h)

/-- A STEP of a core, judged by ACC and IC. -/
def stepGives (s : State) (acc : XNum) (ic : Nat) (fm : Bool) : Bool :=
  nextPasses (fun t => t.acc = acc && t.ic = ic && t.fm = fm && t.reply = .outcome (.ok none)) (step s)

/-- A STEP of a core that raises `e` with ACC, IC and FM kept. -/
def stepRaises (s : State) (e : ErrorLabel) : Bool :=
  nextPasses (fun t => t.acc = s.acc && t.ic = s.ic && t.fm = s.fm && t.out = s.out && t.hlt = s.hlt &&
    t.memory = s.memory && t.reply = .outcome (.failed e)) (step s)

/-! ### WellFormed: what each check refuses -/

theorem test_wellFormed_operand_100 : (Instr.load 100).wellFormed = false := by decide
theorem test_wellFormed_operand_99 : (Instr.load 99).wellFormed = true := by decide
theorem test_inTable_basic_power : (Instr.power 0).inTable .basic = false := by decide
theorem test_inTable_extended_power : (Instr.power 0).inTable .extended = true := by decide
theorem test_wellFormedIn_basic_operand : (Instr.add 100).wellFormedIn .basic = false := by decide
theorem test_wellFormedIn_basic_row : (Instr.writeNewline 0).wellFormedIn .basic = false := by decide
theorem test_wellFormedIn_basic_add : (Instr.add 99).wellFormedIn .basic = true := by decide

/-! ### Decoding: one word per row, as its sign, opcode digits and operand digits in BCD (R100), with its integer -/

theorem test_decode_read : decodeTableWord 24 0b0_0001_0000_0000_0111 = some (.read 7) ∧ decode (.ofInt 1007) = .ok (.read 7) := by decide
theorem test_decode_write : decodeTableWord 24 0b0_0001_0001_0000_1001 = some (.write 9) ∧ decode (.ofInt 1109) = .ok (.write 9) := by decide
theorem test_decode_readString : decodeTableWord 24 0b0_0001_0010_0101_0000 = some (.readString 50) ∧ decode (.ofInt 1250) = .ok (.readString 50) := by decide
theorem test_decode_writeString : decodeTableWord 24 0b0_0001_0011_0101_0000 = some (.writeString 50) ∧ decode (.ofInt 1350) = .ok (.writeString 50) := by decide
theorem test_decode_writeNewline : decodeTableWord 24 0b0_0001_0100_0000_0000 = some (.writeNewline 0) ∧ decode (.ofInt 1400) = .ok (.writeNewline 0) := by decide
theorem test_decode_load : decodeTableWord 24 0b0_0010_0000_0000_0111 = some (.load 7) ∧ decode (.ofInt 2007) = .ok (.load 7) := by decide
theorem test_decode_store : decodeTableWord 24 0b0_0010_0001_0000_1001 = some (.store 9) ∧ decode (.ofInt 2109) = .ok (.store 9) := by decide
theorem test_decode_add : decodeTableWord 24 0b0_0011_0000_0000_1000 = some (.add 8) ∧ decode (.ofInt 3008) = .ok (.add 8) := by decide
theorem test_decode_subtract : decodeTableWord 24 0b0_0011_0001_0010_0010 = some (.subtract 22) ∧ decode (.ofInt 3122) = .ok (.subtract 22) := by decide
theorem test_decode_divide : decodeTableWord 24 0b0_0011_0010_1001_1001 = some (.divide 99) ∧ decode (.ofInt 3299) = .ok (.divide 99) := by decide
theorem test_decode_multiply : decodeTableWord 24 0b0_0011_0011_1001_1001 = some (.multiply 99) ∧ decode (.ofInt 3399) = .ok (.multiply 99) := by decide
theorem test_decode_modulo : decodeTableWord 24 0b0_0011_0100_0010_0001 = some (.modulo 21) ∧ decode (.ofInt 3421) = .ok (.modulo 21) := by decide
theorem test_decode_power : decodeTableWord 24 0b0_0011_0101_0010_0001 = some (.power 21) ∧ decode (.ofInt 3521) = .ok (.power 21) := by decide
theorem test_decode_branch : decodeTableWord 24 0b0_0100_0000_1001_1001 = some (.branch 99) ∧ decode (.ofInt 4099) = .ok (.branch 99) := by decide
theorem test_decode_branchneg : decodeTableWord 24 0b0_0100_0001_0000_0111 = some (.branchneg 7) ∧ decode (.ofInt 4107) = .ok (.branchneg 7) := by decide
theorem test_decode_branchzero : decodeTableWord 24 0b0_0100_0010_0000_1000 = some (.branchzero 8) ∧ decode (.ofInt 4208) = .ok (.branchzero 8) := by decide
theorem test_decode_halt : decodeTableWord 24 0b1_0100_0011_0111_0111 = some (.halt 77) ∧ decode (.ofInt (-4377)) = .ok (.halt 77) := by decide
theorem test_decode_loadFloat : decodeTableWord 24 0b0_0101_0000_0010_0000 = some (.loadFloat 20) ∧ decode (.ofInt 5020) = .ok (.loadFloat 20) := by decide
theorem test_decode_storeFloat : decodeTableWord 24 0b0_0101_0001_0010_0010 = some (.storeFloat 22) ∧ decode (.ofInt 5122) = .ok (.storeFloat 22) := by decide
theorem test_decode_addFloat : decodeTableWord 24 0b0_0101_0010_0000_0000 = some (.addFloat 0) ∧ decode (.ofInt 5200) = .ok (.addFloat 0) := by decide
theorem test_decode_subtractFloat : decodeTableWord 24 0b0_0101_0011_0000_0000 = some (.subtractFloat 0) ∧ decode (.ofInt 5300) = .ok (.subtractFloat 0) := by decide
theorem test_decode_divideFloat : decodeTableWord 24 0b0_0101_0100_0010_0001 = some (.divideFloat 21) ∧ decode (.ofInt 5421) = .ok (.divideFloat 21) := by decide
theorem test_decode_multiplyFloat : decodeTableWord 24 0b0_0101_0101_1001_1001 = some (.multiplyFloat 99) ∧ decode (.ofInt 5599) = .ok (.multiplyFloat 99) := by decide

/-- V1.5 to V1.9, V1.14, V1.17, V1.18: words whose opcode has no row. -/
theorem test_decode_noRow : ∀ z ∈ [(0 : Int), 99, 999, 9999, -9999, 5600, 10007, 12345],
    decode (.ofInt z) = .error (.noSuchOpcode (z.natAbs / 100)) := by decide

/-- V1.19, V1.20, V1.21, and texts that are no literal (R98). -/
theorem test_decode_texts :
    decode (.str ['0', 'x', '0', '3', 'E', 'F']) = .ok (.read 7) ∧ decode (.str ['0', 'x', '1', '0', 'c', 'C']) = .ok (.halt 0) ∧
    decode (.num (frac 5 2)) = .error .noIntegerValue ∧ decode (.str ['0', 'x']) = .error .noIntegerValue ∧
    decode (.str ['0', 'X', '1']) = .error .noIntegerValue ∧ decode (.str ['H', 'I']) = .error .noIntegerValue := by
  decide

/-- R100: the two patterns of V1's note, and a nibble above 9, which denotes no word. -/
theorem test_bcd17 : bcd17? 2007 = some 0x02007 ∧ bcd17? (-4300) = some 0x14300 ∧ bcd17Word? 0x0100A = none ∧
    bcd17? 10000 = none := by decide

/-! ### Input and output instructions -/

/-- V3.1. -/
theorem test_read : nextPasses (fun t => t.pend = some ⟨.number, 7⟩ && t.ic = 0 && t.ir = .ofInt 1007 && t.opc = 10 &&
    t.opd = 7 && t.run && t.memory = [cell 0 1007]) (step (coreAt .basic [cell 0 1007] (.ofInt 0) 0)) = true := by
  decide

/-- V3.23. -/
theorem test_write : nextPasses (fun t => t.out = [.outNum (.ofInt (-7)) false] && t.ic = 6 &&
    t.reply = .outcome (.ok (some ['-', '0', '0', '0', '7'])))
    (step (coreAt .basic [cell 5 1109, cell 9 (-7)] (.ofInt 0) 5)) = true := by decide

/-- V3.30. -/
theorem test_write_string_refused : isRefused .stringOperand
    (step (coreAt .extended [cell 5 1109, (9, .str ['0', 'x', '1', '0', 'C', 'C'])] (.ofInt 0) 5)) = true := by
  decide

/-- V4.20. -/
theorem test_readString : nextPasses (fun t => t.pend = some ⟨.string, 50⟩ && t.ic = 0)
    (step (coreAt .extended [cell 0 1250] (.ofInt 0) 0)) = true := by decide

/-- V1.10: opcode 12 is illegal in BASIC. -/
theorem test_readString_basic : stepRaises (coreAt .basic [cell 0 1250] (.ofInt 0) 0) .eOpcode = true := by decide

/-- V4.24. -/
theorem test_writeString : nextPasses (fun t => t.out = [.outStr ['H', 'I']] && t.ic = 2 &&
    t.reply = .outcome (.ok (some ['H', 'I'])))
    (step (coreAt .extended [cell 1 1350, cell 50 200, cell 51 7273] (.ofInt 0) 1)) = true := by decide

/-- V4.27 and V4.29: a malformed header is refused, a body past the end of memory raises. -/
theorem test_writeString_stops :
    isRefused .malformedHeader (step (coreAt .extended [cell 1 1350, cell 50 250] (.ofInt 0) 1)) = true ∧
    stepRaises (coreAt .extended [cell 1 1399, cell 99 180200] (.ofInt 0) 1) .eOperand = true := by decide

/-- V4.28. -/
theorem test_writeNewline : nextPasses (fun t => t.out = [.outNewline] && t.ic = 4 && t.reply = .outcome (.ok (some ['\n'])))
    (step (coreAt .extended [cell 3 1400] (.ofInt 0) 3)) = true := by decide

/-- V3.20, V3.22, V3.25, V3.27: texts of numbers. -/
theorem test_fmt : (XNum.ofInt 11).fmt false = ['+', '0', '0', '1', '1'] ∧ (XNum.ofInt 0).fmt false = ['+', '0', '0', '0', '0'] ∧
    (XNum.ofInt (-9999)).fmt true = ['-', '9', '9', '9', '9'] ∧
    (XNum.ofInt 123456).fmt true = ['+', '1', '2', '3', '4', '5', '6'] := by decide

/-- V3.28: the numeral of 3.5 in float mode is 3.50; sign and padding are FMT_X. -/
theorem test_fmt_float : (frac 7 2).fmt true = fmtLead ⟨7, 2, by decide, by decide⟩ ++ ['3', '.', '5', '0'] := rfl

/-- R170: 1/3 is 33 or 34 hundredths. -/
theorem test_hundredths : hundredths ⟨1, 3, by decide, by decide⟩ = 33 ∨ hundredths ⟨1, 3, by decide, by decide⟩ = 34 := by
  unfold hundredths
  cases Config.fmtRoundsUp ⟨1, 3, by decide, by decide⟩ <;> decide

/-- V4.1 to V4.5. -/
theorem test_pack : pack? ['H', 'I'] = some [200, 7273] ∧ pack? ['A'] = some [100, 6500] ∧ pack? [] = some [0] ∧
    pack? ['A', 'B', 'C'] = some [300, 6566, 6700] ∧ pack? ['H', 'i'] = some [200, 7305] := by decide

/-- V4.6 to V4.10. -/
theorem test_unpack : unpack? 2 [7273] = some ['H', 'I'] ∧ unpack? 1 [6500] = some ['A'] ∧
    unpack? 3 [6566, 6700] = some ['A', 'B', 'C'] ∧ unpack? 2 [7305] = some ['I', Char.ofNat 5] ∧ unpack? 0 [] = some [] := by
  decide

/-! ### PROVIDE_INPUT -/

/-- The state after V3.1. -/
def afterRead (v : Variant) : State :=
  { coreAt v [cell 0 1007] (.ofInt 0) 0 with
    run := true, ir := .ofInt 1007, opc := 10, opd := 7, pend := some ⟨.number, 7⟩ }

/-- V3.2 and V3.6. -/
theorem test_provideInput : ∀ z ∈ [(5 : Int), -9999], nextPasses
    (fun t => t.memory = [cell 0 1007, cell 7 z] && t.pend = none && t.ic = 1 && t.reply = .outcome (.ok none))
    (step (withCommand (.provideInput (.number (.ofInt z))) (afterRead .basic))) = true := by decide

/-- V3.3, V3.7, V3.8. -/
theorem test_provideInput_bad :
    ∀ v ∈ [InputValue.number (.ofInt 10000), .number (frac 5 2), .text ['a', 'b', 'c']], nextPasses
    (fun t => t.toCoreState = (afterRead .basic).toCoreState && t.reply = .outcome (.failed .iBadValue))
    (step (withCommand (.provideInput v) (afterRead .basic))) = true := by decide

/-- V3.14. -/
theorem test_provideInput_extended : nextPasses (fun t => t.memory = [cell 0 1007, (7, .num (frac 5 2))] && t.ic = 1)
    (step (withCommand (.provideInput (.number (frac 5 2))) (afterRead .extended))) = true := by decide

/-- V3.9. -/
theorem test_provideInput_notWaiting : nextPasses (fun t => t.reply = .outcome (.failed .iNotWaiting) && t.ic = 0)
    (step (withCommand (.provideInput (.number (.ofInt 5))) (coreAt .basic [] (.ofInt 0) 0))) = true := by decide

/-- V4.21 and V4.23: the words of a string, from address 50 and across address 99. -/
theorem test_provideString : ∀ a ∈ [50, 99], nextPasses
    (fun t => t.memory = [cell a 200, cell (a + 1) 7273] && t.ic = 1 && t.pend = none)
    (step (withCommand (.provideInput (.text ['H', 'I'])) (awaiting .string a (coreAt .extended [] (.ofInt 0) 0)))) = true := by
  decide

/-! ### Load and store -/

/-- V5.2, V5.3. -/
theorem test_load : stepGives (coreAt .basic [cell 3 2007, cell 7 (-9999)] (.ofInt 0) 3) (.ofInt (-9999)) 4 false = true ∧
    stepGives (coreAt .basic [cell 3 2003] (.ofInt 0) 3) (.ofInt 2003) 4 false = true := by decide

/-- V5.4, V5.6 (a stored zero is no entry of the list). -/
theorem test_store : nextPasses (fun t => t.memory = [cell 1 2109, cell 9 11] && t.acc = .ofInt 11 && t.ic = 2)
      (step (coreAt .basic [cell 1 2109] (.ofInt 11) 1)) = true ∧
    nextPasses (fun t => t.memory = [] && t.ic = 2) (step (coreAt .basic [cell 1 2101] (.ofInt 0) 1)) = true := by
  decide

/-- V5.7. -/
theorem test_loadFloat : stepGives (coreAt .extended [cell 1 5020, cell 20 7] (.ofInt 0) 1) (.ofInt 7) 2 true = true := by
  decide

/-- V5.8. -/
theorem test_storeFloat : nextPasses (fun t => t.memory = [cell 1 5122, (22, .num (frac 7 2))] && t.fm && t.ic = 2)
    (step (coreAt .extended [cell 1 5122] (frac 7 2) 1)) = true := by decide

/-! ### Arithmetic: a core with the instruction at 0 and the operand `m` at 50 -/

/-- The core of the V6 vectors. -/
def alu (v : Variant) (opc : Int) (a m : XNum) : State :=
  coreAt v [cell 0 (opc * 100 + 50), (50, .num m)] a 0

/-- V6.4, V6.3. -/
theorem test_add : stepGives (alu .basic 30 (.ofInt 5000) (.ofInt 4999)) (.ofInt 9999) 1 false = true ∧
    stepRaises (alu .basic 30 (.ofInt 9999) (.ofInt 1)) .eOverflow = true := by decide

/-- V6.40, V6.64. -/
theorem test_add_extended : stepGives (alu .extended 30 (.ofInt 9999) (.ofInt 1)) (.ofInt 10000) 1 false = true ∧
    isRefused .stringOperand (step (coreAt .extended [cell 0 3050, (50, .str ['0', 'x', '1'])] (.ofInt 1) 0)) = true := by
  decide

/-- V6.9, V6.10. -/
theorem test_subtract : stepGives (alu .basic 31 (.ofInt (-5)) (.ofInt 3)) (.ofInt (-8)) 1 false = true ∧
    stepRaises (alu .basic 31 (.ofInt (-9999)) (.ofInt 1)) .eOverflow = true := by decide

/-- V6.16, V6.17, V6.20. -/
theorem test_divide : stepGives (alu .basic 32 (.ofInt (-7)) (.ofInt 2)) (.ofInt (-4)) 1 false = true ∧
    stepGives (alu .basic 32 (.ofInt 7) (.ofInt (-2))) (.ofInt (-4)) 1 false = true ∧
    stepRaises (alu .basic 32 (.ofInt 42) (.ofInt 0)) .eDivZero = true := by decide

/-- V6.43. -/
theorem test_divide_extended : stepGives (alu .extended 32 (.ofInt (-7)) (.ofInt 2)) (.ofInt (-4)) 1 false = true := by
  decide

/-- V6.30, V6.29. -/
theorem test_multiply : stepGives (alu .basic 33 (.ofInt 99) (.ofInt 101)) (.ofInt 9999) 1 false = true ∧
    stepRaises (alu .basic 33 (.ofInt 100) (.ofInt 100)) .eOverflow = true := by decide

/-- V6.47, V6.48, V6.51. -/
theorem test_modulo : stepGives (alu .extended 34 (.ofInt (-7)) (.ofInt 2)) (.ofInt (-1)) 1 false = true ∧
    stepGives (alu .extended 34 (.ofInt 7) (.ofInt (-2))) (.ofInt 1) 1 false = true ∧
    stepRaises (alu .extended 34 (.ofInt 7) (.ofInt 0)) .eDivZero = true := by decide

/-- V6.53, V6.54. -/
theorem test_power : stepGives (alu .extended 35 (.ofInt (-3)) (.ofInt 3)) (.ofInt (-27)) 1 false = true ∧
    stepGives (alu .extended 35 (.ofInt 5) (.ofInt 0)) (.ofInt 1) 1 false = true := by decide

/-- V6.58 on integers, where no membership is assumed. -/
theorem test_addFloat : stepGives (alu .extended 52 (.ofInt 1) (.ofInt 2)) (.ofInt 3) 1 true = true := by decide

/-- V6.59 on integers. -/
theorem test_subtractFloat : stepGives (alu .extended 53 (.ofInt 1) (.ofInt 3)) (.ofInt (-2)) 1 true = true := by
  decide

/-- R232 laws 3 and 5: the quotient of -1 by 3, a member or not, is negative, so that BRANCHNEG is taken after it. -/
theorem test_divideFloat_sign : ((XNum.ofInt (-1)).div (.ofInt 3)).isNeg = true := by
  have h := XNum.hasFloor_div (a := -1) (b := 3) (by decide)
  simp only [XNum.hasFloor, Bool.and_eq_true, decide_eq_true_eq] at h
  exact h.1.2.trans (by decide)

/-- V6.61, V6.62. -/
theorem test_divideFloat : stepGives (alu .extended 54 (.ofInt 6) (.ofInt 3)) (.ofInt 2) 1 true = true ∧
    stepRaises (alu .extended 54 (.ofInt 7) (.ofInt 0)) .eDivZero = true := by decide +kernel

/-- V6.63. -/
theorem test_multiplyFloat : stepGives (alu .extended 55 (frac 3 2) (.ofInt 4)) (.ofInt 6) 1 true = true := by
  decide +kernel

/-! ### Control -/

/-- V7.12. -/
theorem test_branch : stepGives (coreAt .basic [cell 0 4099] (.ofInt 5) 0) (.ofInt 5) 99 false = true := by decide

/-- V7.3, V7.5, V7.14. -/
theorem test_branchneg : stepGives (coreAt .basic [cell 4 4107] (.ofInt (-8)) 4) (.ofInt (-8)) 7 false = true ∧
    stepGives (coreAt .basic [cell 4 4107] (.ofInt 0) 4) (.ofInt 0) 5 false = true ∧
    stepGives (coreAt .extended [cell 4 4107] (frac (-1) 2) 4) (frac (-1) 2) 7 false = true := by decide

/-- V7.7, V7.9, V7.13. -/
theorem test_branchzero : stepGives (coreAt .basic [cell 1 4208] (.ofInt 0) 1) (.ofInt 0) 8 false = true ∧
    stepGives (coreAt .basic [cell 1 4208] (.ofInt (-3)) 1) (.ofInt (-3)) 2 false = true ∧
    stepGives (coreAt .extended [cell 1 4208] (frac 1 2) 1) (frac 1 2) 2 false = true := by decide

/-- V7.11. -/
theorem test_halt : nextPasses (fun t => t.hlt && !t.run && t.out = [.outHalt] && t.ic = 6 && t.opc = 43 && t.opd = 77)
    (step (coreAt .basic [cell 6 (-4377)] (.ofInt 0) 6)) = true := by decide

/-! ### The STEP frame -/

/-- V2.3, V2.4: a reset core fetches 0; a counter at `N` does not fetch. -/
theorem test_step_errors :
    nextPasses (fun t => t.run && t.ir = .ofInt 0 && t.opc = 0 && t.opd = 0 && t.ic = 0 && t.reply = .outcome (.failed .eOpcode))
      (step (State.resetOf .basic)) = true ∧
    nextPasses (fun t => t.run && t.ir = .ofInt 2000 && t.opc = 20 && t.ic = 100 && t.reply = .outcome (.failed .eCounter))
      (step { coreAt .basic [cell 0 4099] (.ofInt 5) 100 with ir := .ofInt 2000, opc := 20 }) = true := by decide

/-- V2.6: the counter passes the last address and does not wrap. -/
theorem test_step_last_address :
    stepGives (coreAt .basic [cell 0 4099, cell 99 2000] (.ofInt 0) 99) (.ofInt 4099) 100 false = true := by decide

/-- V2.1, V2.2. -/
theorem test_step_noop :
    nextPasses (fun t => t.ic = 6 && !t.run && t.reply = .outcome (.ok none))
      (step { coreAt .basic [] (.ofInt 0) 6 with hlt := true }) = true ∧
    nextPasses (fun t => t.ic = 0 && t.pend = some ⟨.number, 7⟩ && t.reply = .outcome (.ok none))
      (step (afterRead .basic)) = true := by decide

/-- V1.21: a number that is no integer leaves OPC and OPD. -/
theorem test_step_fraction : nextPasses (fun t => t.ir = .num (frac 5 2) && t.opc = 10 && t.opd = 7 &&
    t.reply = .outcome (.failed .eOpcode))
    (step { coreAt .extended [(1, .num (frac 5 2))] (.ofInt 0) 1 with opc := 10, opd := 7 }) = true := by decide

/-! ### Program text and LOAD -/

/-- V9.1, V9.4, V9.15. -/
theorem test_parse :
    parseText .basic "+1007\n+1008\n+4300\n-99999".toList = .ok [(0, .dec 1007), (1, .dec 1008), (2, .dec 4300)] ∧
    parseText .basic "+4300\n-99999\ngarbage here".toList = .ok [(0, .dec 4300)] ∧
    parseText .basic "+0001\n7 ? +0009\n+0002".toList = .ok [(0, .dec 1), (7, .dec 9), (1, .dec 2)] := by decide

/-- V9.2, V9.3. -/
theorem test_parse_addressed :
    parseText .basic "00 ? +2010\n10 ? -0042\n99 ? +4300".toList = .ok [(0, .dec 2010), (10, .dec (-42)), (99, .dec 4300)] ∧
    parseText .basic "+1007 // read\n\n// comment only\n+4300".toList = .ok [(0, .dec 1007), (1, .dec 4300)] := by
  decide

/-- D40: a CR before a line feed is white space; anywhere else at an end of a line it is not. -/
theorem test_parse_cr :
    parseText .basic "+1007\r\n\r\n+4300 \r\n".toList = .ok [(0, .dec 1007), (1, .dec 4300)] ∧
    parseText .basic "+4300\r".toList = .error 0 ∧ parseText .basic "\r+4300\n".toList = .error 0 ∧
    parseText .basic "+4300\r\r\n".toList = .error 0 := by decide +kernel

/-- V9.9 to V9.13. -/
theorem test_parse_errors : ∀ t ∈ ["5 ? 0x10CC", "abc", "+12.5", "5 ?", "1000 ? +0001"],
    parseText .basic t.toList = .error 0 := by decide

/-- V9.18, V9.19. -/
theorem test_parse_extended :
    parseText .extended "0 ? 0x139C\n999 ? +123456".toList = .ok [(0, .hex "0x139C".toList), (999, .dec 123456)] ∧
    parseText .extended "0 ? -99999\n1 ? +4300".toList = .ok [] := by decide

/-- V9.5 to V9.8, V9.14: the errors of a load, and what is installed. -/
theorem test_load_results :
    nextPasses (fun t => t.reply = .loadFailed .lWord 0 && t.memory = [])
      (step (withCommand (.load [(0, .dec 10000)]) (afterRead .basic))) = true ∧
    nextPasses (fun t => t.reply = .loadFailed .lAddr 0 && t.pend = none)
      (step (withCommand (.loadText "100 ? +0000".toList) (afterRead .basic))) = true ∧
    nextPasses (fun t => t.reply = .loaded && t.memory = [cell 99 9999])
      (step (withCommand (.load [(99, .dec 9999)]) (afterRead .basic))) = true ∧
    nextPasses (fun t => t.reply = .loaded && t.memory = [cell 5 2])
      (step (withCommand (.load [(5, .dec 1), (5, .dec 2)]) (afterRead .basic))) = true := by decide

/-- V8.2. -/
theorem test_reset : nextPasses (fun t => t.toCoreState = CoreState.reset && t.reply = .completed)
    (step (withCommand .reset (afterRead .basic))) = true := by decide

theorem test_memory_wf_reset : Memory.wf State.reset.memory = true := by decide

/-- The first step after reset with a table word placed runs it. -/
theorem test_withFetchWord : nextPasses (fun t => t.acc = .ofInt 2000 && t.ic = 1)
    (step (State.reset.withFetchWord 24 0x02000)) = true := by decide

/-- R232 law 4 on the rows of R231's table. -/
theorem test_fdiv : Int.fdiv 7 2 = 3 ∧ Int.fdiv (-7) 2 = -4 ∧ Int.fdiv 7 (-2) = -4 ∧ Int.fdiv (-7) (-2) = 3 := by decide

/-! ### Witnesses: states and operands that meet the hypotheses of a statement, each clause at a boundary of its range -/

theorem ready_coreAt (v : Variant) (m : Memory) (acc : XNum) (ic : Nat) : Stepping (coreAt v m acc ic) := ⟨rfl, rfl⟩

theorem witness_DecodeOfEncodeIsTheInstruction :
    (Instr.multiplyFloat 99).wellFormed = true ∧ (Instr.read 0).wellFormed = true := by decide

theorem witness_EncodeOfDecodeIsTheWordWithoutSign : decode (.ofInt (-4399)) = .ok (.halt 99) := by decide

theorem witness_BcdViewHoldsTheWord : (9999 : Int).natAbs ≤ 9999 ∧ (-9999 : Int).natAbs ≤ 9999 := by decide

theorem witness_HexLiteralDecodesAsItsInteger : hexLiteral? ['0', 'x', 'F', 'f', '0'] = some 4080 ∧
    hexDigit? '0' = some 0 ∧ hexDigit? '9' = some 9 ∧ hexDigit? 'A' = some 10 ∧ hexDigit? 'F' = some 15 ∧
    hexDigit? 'a' = some 10 ∧ hexDigit? 'f' = some 15 := by decide

theorem witness_StepRunsTheDecodedInstruction : ∃ s : State, Stepping s ∧ s.ic + 1 = s.variant.words ∧
    s.ic < s.variant.words ∧ decode s.fetched = .ok (.load 0) :=
  ⟨coreAt .basic [cell 99 2000] (.ofInt 0) 99, ready_coreAt _ _ _ _, rfl, by decide, by decide⟩

theorem witness_StepWhileHaltedOrWaitingChangesNothing :
    (∃ s : State, s.commands = [] ∧ s.hlt = true) ∧ ∃ s : State, s.commands = [] ∧ s.pend ≠ none :=
  ⟨⟨{ State.reset with hlt := true }, rfl, rfl⟩, afterRead .basic, rfl, by decide⟩

theorem witness_CounterOutsideMemoryRaisesECounter : ∃ s : State, Stepping s ∧ s.variant.words = s.ic :=
  ⟨coreAt .basic [] (.ofInt 0) 100, ready_coreAt _ _ _ _, rfl⟩

theorem witness_IllegalOpcodeRaisesEOpcode : ∃ s : State, Stepping s ∧ s.ic < s.variant.words ∧
    s.fetched.int? = some (-9999) ∧ (-9999 : Int).natAbs / 100 ∉ s.variant.opcodes :=
  ⟨coreAt .basic [cell 99 (-9999)] (.ofInt 0) 99, ready_coreAt _ _ _ _, by decide, by decide, by decide⟩

theorem witness_WordWithoutIntegerValueRaisesEOpcode : ∃ s : State, Stepping s ∧ s.ic < s.variant.words ∧
    s.fetched.int? = none :=
  ⟨coreAt .extended [(999, .num (frac 5 2))] (.ofInt 0) 999, ready_coreAt _ _ _ _, by decide, by decide⟩

/-- A step that fails, in Ready: program P5 at its second step. -/
theorem exists_failed : ∃ s t : State, Stepping s ∧ s.ic < s.variant.words ∧ decode s.fetched = .ok (.add 4) ∧
    step s = .next t ∧ t.reply = .outcome (.failed .eOverflow) := by
  obtain ⟨t, h, hp⟩ := exists_next (r := step (coreAt .basic [cell 1 3004, cell 4 1] (.ofInt 9999) 1))
    (p := fun t => t.reply = .outcome (.failed .eOverflow)) (by decide)
  exact ⟨_, t, ready_coreAt _ _ _ _, by decide, by decide, h, of_decide_eq_true hp⟩

theorem witness_FailedStepChangesOnlyFetchRegisters : ∃ (s t : State) (e : ErrorLabel), Stepping s ∧
    step s = .next t ∧ t.reply = .outcome (.failed e) :=
  let ⟨s, t, h, _, _, h1, h2⟩ := exists_failed
  ⟨s, t, _, h, h1, h2⟩

theorem witness_FailedStepFailsForEver : ∃ (s t : State) (e : ErrorLabel), Stepping s ∧
    step s = .next t ∧ t.reply = .outcome (.failed e) := witness_FailedStepChangesOnlyFetchRegisters

theorem witness_StepOutcomeIsOneOfFour : ∃ s t : State, s.commands = [] ∧ step s = .next t :=
  let ⟨s, t, h, _, _, h1, _⟩ := exists_failed
  ⟨s, t, h.queue, h1⟩

/-- The premises of CounterUpdateAfterStep with a next state that passes a test. -/
theorem exists_counterUpdate (s : State) (i : Instr) (p : State → Bool) (hs : Stepping s)
    (h : (decide (s.ic < s.variant.words) && (decode s.fetched).toOption == some i && nextPasses p (step s)) = true) :
    ∃ t, Stepping s ∧ s.ic < s.variant.words ∧ decode s.fetched = .ok i ∧ step s = .next t ∧ p t = true := by
  simp only [Bool.and_eq_true, decide_eq_true_eq, beq_iff_eq] at h
  obtain ⟨t, h1, h2⟩ := exists_next h.2
  refine ⟨t, hs, h.1.1, ?_, h1, h2⟩
  have := h.1.2
  cases hd : decode s.fetched with
  | error e => rw [hd] at this; cases this
  | ok j => rw [hd] at this; cases this; rfl

theorem witness_CounterUpdateAfterStep_failed : ∃ (s t : State) (i : Instr) (e : ErrorLabel), Stepping s ∧
    s.ic < s.variant.words ∧ decode s.fetched = .ok i ∧ step s = .next t ∧ t.reply = .outcome (.failed e) :=
  let ⟨s, t, h⟩ := exists_failed
  ⟨s, t, _, _, h⟩

theorem witness_CounterUpdateAfterStep_waiting : ∃ (s t : State) (i : Instr), Stepping s ∧
    s.ic < s.variant.words ∧ decode s.fetched = .ok i ∧ step s = .next t ∧ t.reply = .outcome (.waiting .number) := by
  refine ⟨coreAt .basic [cell 99 1099] (.ofInt 0) 99,
    ((coreAt .basic [cell 99 1099] (.ofInt 0) 99).latch (.ofInt 1099) 10 99).suspend .number 99, .read 99,
    ready_coreAt _ _ _ _, by decide, by decide, ?_, rfl⟩
  rw [step_nil rfl, stepCommand_ready rfl rfl, fetchAndExecute_inside (by decide),
    executeWord_ok (i := .read 99) (by decide)]
  rfl

theorem witness_CounterUpdateAfterStep_halt : ∃ t, Stepping (coreAt .basic [cell 99 4399] (.ofInt 0) 99) ∧
    99 < Variant.basic.words ∧ decode (coreAt .basic [cell 99 4399] (.ofInt 0) 99).fetched = .ok (.halt 99) ∧
    step (coreAt .basic [cell 99 4399] (.ofInt 0) 99) = .next t ∧ t.hlt = true :=
  exists_counterUpdate _ _ _ (ready_coreAt _ _ _ _) (by decide)

theorem witness_CounterUpdateAfterStep_jumps : ∃ t, Stepping (coreAt .basic [cell 0 4199] (.ofInt (-1)) 0) ∧
    0 < Variant.basic.words ∧ decode (coreAt .basic [cell 0 4199] (.ofInt (-1)) 0).fetched = .ok (.branchneg 99) ∧
    step (coreAt .basic [cell 0 4199] (.ofInt (-1)) 0) = .next t ∧ (Instr.branchneg 99).jumps (.ofInt (-1)) = true :=
  exists_counterUpdate _ _ (fun _ => (Instr.branchneg 99).jumps (.ofInt (-1))) (ready_coreAt _ _ _ _) (by decide)

theorem witness_CounterUpdateAfterStep_falls : ∃ t, Stepping (coreAt .basic [cell 99 4199] (.ofInt 0) 99) ∧
    99 < Variant.basic.words ∧ decode (coreAt .basic [cell 99 4199] (.ofInt 0) 99).fetched = .ok (.branchneg 99) ∧
    step (coreAt .basic [cell 99 4199] (.ofInt 0) 99) = .next t ∧
    (t.reply = .outcome (.ok none) && !(Instr.branchneg 99).jumps (.ofInt 0)) = true :=
  exists_counterUpdate _ _ (fun t => t.reply = .outcome (.ok none) && !(Instr.branchneg 99).jumps (.ofInt 0))
    (ready_coreAt _ _ _ _) (by decide)

theorem witness_VariantIsFixedAndOutputOnlyGrows : ∃ s t : State, step s = .next t ∧ (nextCommand s).1.discards = false := by
  obtain ⟨t, h, -⟩ := exists_next (r := step (coreAt .basic [cell 99 1199] (.ofInt 0) 99)) (p := fun _ => true) (by decide)
  exact ⟨_, t, h, rfl⟩

/-! The invariants hold in a core with a request outstanding, in a halted core, and in a core at its last address. -/

theorem inv_afterRead : Inv (afterRead .basic) := inv_of_ok (by decide)

/-- A core that has executed `HALT 99` at address 999 of EXTENDED. -/
def haltedCore : State :=
  { coreAt .extended [cell 999 4399] (frac 5 2) 999 with
    ir := .ofInt 4399, opc := 43, opd := 99, hlt := true, fm := true, out := [.outHalt] }

theorem inv_haltedCore : Inv haltedCore := inv_of_ok (by decide)

theorem witness_EveryStepKeepsTheInvariants : ∃ s t : State, Inv s ∧ step s = .next t ∧ t.ic = 1 := by
  obtain ⟨t, h, hp⟩ := exists_next (r := step (withCommand (.provideInput (.number (.ofInt 9999))) (afterRead .basic)))
    (p := fun t => t.ic = 1) (by decide)
  exact ⟨withCommand (.provideInput (.number (.ofInt 9999))) (afterRead .basic), t, inv_afterRead.congr rfl rfl, h,
    of_decide_eq_true hp⟩

theorem witness_BasicStepAlwaysAnswers : ∃ s : State, Inv s ∧ s.variant = .basic := ⟨_, inv_afterRead, rfl⟩

theorem witness_NoStepFaultsUnderTheInvariants : ∃ s : State, Inv s := ⟨_, inv_haltedCore⟩

theorem witness_RefusedStepReadsAStringOrWritesOne :
    (∃ s : State, Inv s ∧ Stepping s ∧ step s = .refused .stringOperand) ∧
    (∃ s : State, Inv s ∧ Stepping s ∧ step s = .refused .malformedHeader) ∧
    (∃ s : State, Inv s ∧ Stepping s ∧ step s = .refused .malformedBody) ∧
    ∃ s : State, Inv s ∧ Stepping s ∧ step s = .refused .outsideAscii :=
  ⟨⟨coreAt .extended [(99, .str ['0', 'x', '1']), cell 999 2099] (.ofInt 0) 999, inv_of_ok (by decide),
      ready_coreAt _ _ _ _, eq_refused (by decide)⟩,
    ⟨coreAt .extended [cell 0 1399, cell 99 (-100)] (.ofInt 0) 0, inv_of_ok (by decide), ready_coreAt _ _ _ _,
      eq_refused (by decide)⟩,
    ⟨coreAt .extended [cell 0 1399, cell 99 100, cell 100 (-1)] (.ofInt 0) 0, inv_of_ok (by decide), ready_coreAt _ _ _ _,
      eq_refused (by decide)⟩,
    ⟨coreAt .extended [cell 0 1399, cell 99 100, cell 100 12800] (.ofInt 0) 0, inv_of_ok (by decide), ready_coreAt _ _ _ _,
      eq_refused (by decide)⟩⟩

theorem witness_OnlyHaltSetsHalted : ∃ s t : State, step s = .next t ∧ s.hlt = false ∧ t.hlt = true :=
  let ⟨t, _, _, _, h, ht⟩ := witness_CounterUpdateAfterStep_halt
  ⟨_, t, h, rfl, ht⟩

theorem witness_HaltedEndsOnlyByResetOrLoad : ∃ s : State, Inv s ∧ s.hlt = true ∧ (nextCommand s).1.discards = false :=
  ⟨_, inv_haltedCore, rfl, rfl⟩

theorem witness_PendingEndsOnlyByInputResetOrLoad : ∀ c ∈ [Command.reset, .provideInput (.number (.ofInt 5))],
    ∃ (s t : State) (p : Pending), s.commands = [c] ∧ step s = .next t ∧ s.pend = some p ∧ s.hlt = false ∧
      t.pend ≠ some p := by
  intro c hc
  obtain ⟨t, h, hp⟩ := exists_next (r := step (withCommand c (afterRead .basic))) (p := fun t => t.pend = none)
    (by revert c; decide)
  exact ⟨_, t, _, rfl, h, rfl, rfl, by simp [of_decide_eq_true hp]⟩

/-- Both directions of FloatModeIsSticky: FM set before, and FM set by the step. -/
theorem witness_FloatModeIsSticky : ∀ fm : Bool, ∃ s t : State, step s = .next t ∧ (nextCommand s).1.discards = false ∧
    s.fm = fm ∧ t.fm = true := by
  intro fm
  obtain ⟨t, h, hp⟩ := exists_next (r := step { coreAt .extended [cell 999 5099] (.ofInt 0) 999 with fm := fm })
    (p := fun t => t.fm) (by revert fm; decide)
  exact ⟨_, t, h, rfl, rfl, hp⟩

theorem witness_AccumulatorIsWrittenOnlyByTheListed : ∃ s t : State, step s = .next t ∧ t.acc ≠ s.acc := by
  obtain ⟨t, h, hp⟩ := exists_next (r := step (coreAt .basic [cell 99 2099] (.ofInt 0) 99))
    (p := fun t => t.acc = .ofInt 2099) (by decide)
  exact ⟨_, t, h, by simp [of_decide_eq_true hp, coreAt]⟩

/-- Both cases of StepWritesMemoryOnlyByStore. -/
theorem witness_StepWritesMemoryOnlyByStore : ∀ z ∈ [(2099 : Int), 2199], ∃ s t : State, step s = .next t ∧
    (nextCommand s).1 = .step ∧ Memory.read s.memory 99 = .ofInt z := by
  intro z hz
  obtain ⟨t, h, -⟩ := exists_next (r := step (coreAt .basic [cell 99 z] (.ofInt 0) 99)) (p := fun _ => true)
    (by revert z; decide)
  exact ⟨_, t, h, rfl, rfl⟩

theorem witness_StoredWordIsFetchedByTheNextStep : ∃ s : State, Stepping s ∧ s.ic + 1 < s.variant.words ∧
    decode s.fetched = .ok (.store (s.ic + 1)) :=
  ⟨coreAt .basic [cell 98 2199] (.ofInt (-4300)) 98, ready_coreAt _ _ _ _, by decide, by decide⟩

/-- The two address clauses of the READ statements, at their boundary in both variants. -/
theorem witness_ReadSuspendsForANumber : ∀ v : Variant, ∃ s : State, s.variant = v ∧ v.words - 1 < s.variant.words ∧
    s.variant.words ≤ v.words := fun v => ⟨State.resetOf v, rfl, by cases v <;> decide, le_refl _⟩

theorem witness_ReadStringSuspendsForAString : ∃ s : State, s.variant = .extended ∧ 999 < s.variant.words ∧
    s.variant.words ≤ 1000 := ⟨State.reset, rfl, by decide, by decide⟩

/-- The three clauses of `ReadsNumber`, which the statements of WRITE, LOAD, LOAD_FLOAT and the EXTENDED arithmetic
instructions share, at the last address and one past it. -/
def NumberCases : Prop :=
    (∃ (s : State) (x : XNum), s.variant = .extended ∧ 999 < s.variant.words ∧ Memory.read s.memory 999 = .num x) ∧
    (∃ (s : State) (t : Text), s.variant = .extended ∧ 999 < s.variant.words ∧ Memory.read s.memory 999 = .str t) ∧
    ∃ s : State, s.variant = .extended ∧ s.variant.words ≤ 1000

theorem numberCases : NumberCases :=
  ⟨⟨coreAt .extended [(999, .num (frac 5 2))] (.ofInt 0) 0, _, rfl, by decide, rfl⟩,
    ⟨coreAt .extended [(999, .str ['0', 'x', '1'])] (.ofInt 0) 0, _, rfl, by decide, rfl⟩, State.reset, rfl, by decide⟩

theorem witness_WriteAppendsTheNumber : NumberCases := numberCases
theorem witness_LoadMovesTheWordToAcc : NumberCases := numberCases
theorem witness_LoadFloatAlsoSetsFloatMode : NumberCases := numberCases
theorem witness_ExtendedArithmeticStoresTheXnumResult : NumberCases := numberCases
theorem witness_FloatArithmeticStoresTheResultAndSetsFloatMode : NumberCases := numberCases
theorem witness_ExtendedDivideModuloPowerStoreTheXnumResult : NumberCases := numberCases
theorem witness_DivideFloatStoresTheQuotient : NumberCases := numberCases

/-- A divisor of each kind, for the statements of DIVIDE, MODULO and DIVIDE_FLOAT. -/
theorem witness_divisors : (XNum.ofInt 0).isZero = true ∧ (XNum.ofInt (-1)).isZero = false ∧ (frac 1 2).isZero = false := by
  decide

/-- `ReadsNumber` on a BASIC core, for WRITE and LOAD. -/
theorem witness_ReadsNumber_basic :
    (∃ s : State, s.variant = .basic ∧ 99 < s.variant.words ∧ Memory.read s.memory 99 = .num (.ofInt (-9999))) ∧
    ∃ s : State, s.variant = .basic ∧ s.variant.words ≤ 100 :=
  ⟨⟨coreAt .basic [cell 99 (-9999)] (.ofInt 0) 0, rfl, by decide, rfl⟩, State.resetOf .basic, rfl, by decide⟩

/-- The clauses of WriteStringAppendsTheText, in their order; the body clauses with a body that ends at address 999, and
the third with one that ends one past it. -/
theorem witness_WriteStringAppendsTheText :
    (∃ s : State, s.variant = .extended ∧ 999 < s.variant.words ∧ Memory.read s.memory 999 = .str ['0', 'x', '1']) ∧
    (∃ s : State, s.variant = .extended ∧ Memory.read s.memory 998 = .ofInt (2 * 100 : Nat) ∧
      998 + (2 + 1) / 2 ≤ s.variant.words - 1 ∧
      (∀ j, j < (2 + 1) / 2 → Memory.read s.memory (998 + 1 + j) = .ofInt ((fun _ => 12727 : Nat → Nat) j)) ∧
      ∀ i, i < 2 → packedCode (fun _ => 12727) i ≤ 127) ∧
    (∃ s : State, s.variant = .extended ∧ Memory.read s.memory 998 = .ofInt (1 * 100 : Nat) ∧
      998 + (1 + 1) / 2 ≤ s.variant.words - 1 ∧
      (∀ j, j < (1 + 1) / 2 → Memory.read s.memory (998 + 1 + j) = .ofInt ((fun _ => 12800 : Nat → Nat) j)) ∧
      ∃ i, i < 1 ∧ 127 < packedCode (fun _ => 12800) i) ∧
    (∃ s : State, s.variant = .extended ∧ 999 < s.variant.words ∧ Memory.read s.memory 999 = .ofInt (1 * 100 : Nat) ∧
      s.variant.words - 1 < 999 + (1 + 1) / 2) ∧
    (∀ z ∈ [(-100 : Int), -1, 1, 250], ∃ s : State, s.variant = .extended ∧ 999 < s.variant.words ∧
      Memory.read s.memory 999 = .ofInt z ∧ (z < 0 ∨ z % 100 ≠ 0)) ∧
    (∃ (s : State) (x : XNum), s.variant = .extended ∧ 999 < s.variant.words ∧ Memory.read s.memory 999 = .num x ∧
      NonIntegral x) ∧
    (∀ w ∈ [Word.str [], .ofInt (-1), .num (frac 5 2)], ∃ s : State, s.variant = .extended ∧
      Memory.read s.memory 998 = .ofInt (1 * 100 : Nat) ∧ 998 + (1 + 1) / 2 ≤ s.variant.words - 1 ∧ 0 < (1 + 1) / 2 ∧
      NoBodyWord (Memory.read s.memory (998 + 1 + 0))) ∧
    ∃ s : State, s.variant = .extended ∧ s.variant.words ≤ 1000 := by
  refine ⟨⟨coreAt .extended [(999, .str ['0', 'x', '1'])] (.ofInt 0) 0, rfl, by decide, by decide⟩,
    ⟨coreAt .extended [cell 998 200, cell 999 12727] (.ofInt 0) 0, rfl, by decide, by decide, by decide, by decide⟩,
    ⟨coreAt .extended [cell 998 100, cell 999 12800] (.ofInt 0) 0, rfl, by decide, by decide, by decide, 0, by decide⟩,
    ⟨coreAt .extended [cell 999 100] (.ofInt 0) 0, rfl, by decide, by decide, by decide⟩,
    fun z hz => ⟨coreAt .extended [cell 999 z] (.ofInt 0) 0, rfl, show 999 < Variant.extended.words by decide, rfl, ?_⟩,
    ⟨coreAt .extended [(999, .num (frac 5 2))] (.ofInt 0) 0, _, rfl, by decide, rfl, .inl ⟨_, rfl, by decide⟩⟩,
    fun w hw => ⟨coreAt .extended [cell 998 100, (999, w)] (.ofInt 0) 0, rfl, rfl,
      show 998 + (1 + 1) / 2 ≤ Variant.extended.words - 1 by decide, by decide, ?_⟩,
    ⟨State.reset, rfl, by decide⟩⟩
  · revert z; decide
  · show NoBodyWord w
    simp only [List.mem_cons, List.not_mem_nil, or_false] at hw
    rcases hw with rfl | rfl | rfl
    · exact .inl ⟨_, rfl⟩
    · exact .inr (.inl ⟨_, rfl, by decide⟩)
    · exact .inr (.inr ⟨_, rfl, .inl ⟨_, rfl, by decide⟩⟩)

theorem witness_WriteNewlineAppendsTheMarker : ∃ s : State, s.variant = .extended := ⟨State.reset, rfl⟩

theorem witness_ExtendedInstructionsAreIllegalInBasic : ∃ s : State, s.variant = .basic ∧
    ∀ i ∈ [Instr.readString 99, .writeString 0, .writeNewline 0, .modulo 0, .power 0, .loadFloat 0, .storeFloat 0,
      .addFloat 0, .subtractFloat 0, .divideFloat 0, .multiplyFloat 99], i.opcode ∉ Variant.basic.opcodes :=
  ⟨State.resetOf .basic, rfl, by decide⟩

theorem witness_StoreWritesAccToTheWord : ∀ v : Variant, ∃ s : State, s.variant = v ∧ v.words - 1 < s.variant.words ∧
    s.variant.words ≤ v.words := witness_ReadSuspendsForANumber

theorem witness_StoreFloatAlsoSetsFloatMode : ∃ s : State, s.variant = .extended ∧ 999 < s.variant.words ∧
    s.variant.words ≤ 1000 := witness_ReadStringSuspendsForAString

/-- A result at the bound, and one past it, for each of the three instructions. -/
theorem witness_BasicArithmeticIsExactOrOverflows : ∃ s : State, s.variant = .basic ∧ 99 < s.variant.words ∧
    s.acc = .ofInt 9999 ∧ Memory.read s.memory 99 = .ofInt 1 ∧ 9999 < (9999 + 1 : Int).natAbs ∧
    (9999 - 1 : Int).natAbs ≤ 9999 ∧ (9999 * 1 : Int).natAbs ≤ 9999 :=
  ⟨coreAt .basic [cell 99 1] (.ofInt 9999) 0, rfl, by decide, by decide, by decide, by decide, by decide, by decide⟩

theorem witness_BasicDivideStoresTheFloor : ∀ y ∈ [(-1 : Int), 0], ∃ s : State, s.variant = .basic ∧
    99 < s.variant.words ∧ s.acc = .ofInt (-9999) ∧ (-9999 : Int).natAbs ≤ 9999 ∧ Memory.read s.memory 99 = .ofInt y := by
  intro y _
  exact ⟨coreAt .basic [cell 99 y] (.ofInt (-9999)) 0, rfl, show 99 < Variant.basic.words by decide, rfl, by decide, rfl⟩

/-- Both variants, at the ends of the BASIC range, and beyond it in EXTENDED. -/
theorem witness_FloorDivisionIsTheGreatestIntegerBelow : ∀ c ∈ [(Variant.basic, (-9999 : Int), (-1 : Int)),
    (.basic, 9999, -1), (.extended, 10000, 3)], c.2.2 ≠ 0 ∧ ∃ s : State, s.variant = c.1 ∧ 99 < s.variant.words ∧
      s.acc = .ofInt c.2.1 ∧ (s.variant = .basic → c.2.1.natAbs ≤ 9999) ∧ Memory.read s.memory 99 = .ofInt c.2.2 := by
  intro c hc
  refine ⟨by revert c; decide, coreAt c.1 [cell 99 c.2.2] (.ofInt c.2.1) 0, rfl, ?_, rfl, ?_, rfl⟩
  · show 99 < c.1.words
    revert c; decide
  · show c.1 = .basic → c.2.1.natAbs ≤ 9999
    revert c; decide

/-- The clauses of XnumLawsHold: a quotient that is a member in every instantiation, and integers of each sign. -/
theorem witness_XnumLawsHold : ((2 : Rat) ≠ 0 ∧ isMember ((6 : Rat) / 2) = true) ∧ (-2 : Int) ≠ 0 ∧
    (0 : Int) ≤ 7 ∧ (-7 : Int) ≤ 0 ∧ 1 ≤ 1 := by
  refine ⟨⟨by norm_num, ?_⟩, by decide, by decide, by decide, by decide⟩
  rw [show (6 : Rat) / 2 = ((3 : Int) : Rat) by norm_num]
  simp [isMember]

theorem witness_BranchesSetTheCounter : (∃ s : State, s.acc.isNeg = true) ∧ (∃ s : State, s.acc.isNeg = false) ∧
    (∃ s : State, s.acc.isZero = true) ∧ ∃ s : State, s.acc.isZero = false :=
  ⟨⟨coreAt .basic [] (.ofInt (-1)) 0, by decide⟩, ⟨coreAt .basic [] (.ofInt 0) 0, by decide⟩,
    ⟨coreAt .basic [] (.ofInt 0) 0, by decide⟩, coreAt .basic [] (.ofInt 1) 0, by decide⟩

theorem witness_BasicNumbersAreSignAndFourDigits : (9999 : Int).natAbs ≤ 9999 ∧ (-9999 : Int).natAbs ≤ 9999 := by decide

theorem witness_ExtendedNumbersPrintAsR170 : 9999 < (10000 : Int).natAbs ∧ 9999 < (-10000 : Int).natAbs ∧
    (5 / 2 : Rat).den ≠ 1 := by decide +kernel

theorem witness_PackedStringHasHeaderAndPairs : isAscii ['A', Char.ofNat 127] = true ∧ isAscii [Char.ofNat 128] = false := by
  decide

/-- Both clauses: body words with codes up to 127 and above it, and a string with an odd code of 99. -/
theorem witness_UnpackOfPackIsTheString :
    ([12727].length = (2 + 1) / 2 ∧ ∀ i, i < 2 → packedCode (fun j => [12727][j]?.getD 0) i ≤ 127) ∧
    ([12800].length = (1 + 1) / 2 ∧ ∃ i, i < 1 ∧ 127 < packedCode (fun j => [12800][j]?.getD 0) i) ∧
    isAscii ['z', 'c', 'z'] = true ∧
    ∀ (j : Nat) (c : Char), ['z', 'c', 'z'][2 * j + 1]? = some c → c.toNat < 100 := by
  refine ⟨by decide, ⟨by decide, 0, by decide⟩, by decide, fun j c h => ?_⟩
  rcases j with _ | j
  · cases h; decide
  · simp [show 2 * (j + 1) + 1 = 2 * j + 3 by omega] at h

/-- Both clauses: a number at each end of the BASIC range, and a string with an odd code above 99 (V4.5) whose body word
is the last word of memory. -/
theorem witness_TwoPhaseInput :
    (∀ z ∈ [(-9999 : Int), 9999], ∃ s : State, Stepping s ∧ s.ic < s.variant.words ∧ decode s.fetched = .ok (.read 99) ∧
      s.variant = .basic ∧ -9999 ≤ z ∧ z ≤ 9999) ∧
    ∃ s : State, s.commands = [.provideInput (.text ['H', 'i'])] ∧ s.pend = some ⟨.string, 998⟩ ∧
      (∀ c ∈ ['H', 'i'], c.toNat ≤ 127) ∧ 998 + (['H', 'i'].length + 1) / 2 ≤ s.variant.words - 1 := by
  refine ⟨fun z hz => ⟨coreAt .basic [cell 99 1099] (.ofInt 0) 99, ready_coreAt _ _ _ _, by decide, by decide, rfl, ?_⟩,
    withCommand (.provideInput (.text ['H', 'i'])) (awaiting .string 998 State.reset), rfl, rfl,
    isAscii_iff.mp (by decide), show 998 + 1 ≤ Variant.extended.words - 1 by decide⟩
  revert z; decide

/-- The clauses of InputErrorsChangeNothing, in their order. -/
theorem witness_InputErrorsChangeNothing :
    (∃ (s : State) (v : InputValue), s.commands = [.provideInput v] ∧ s.pend = none) ∧
    (∃ (s : State) (p : Pending), s.commands = [.provideInput (.number (.ofInt 10000))] ∧ s.pend = some p ∧
      p.kind = .number ∧ s.variant = .basic ∧ ¬∃ z : Int, XNum.ofInt 10000 = .ofInt z ∧ -9999 ≤ z ∧ z ≤ 9999) ∧
    (∃ (s : State) (p : Pending), s.commands = [.provideInput (.text [])] ∧ s.pend = some p ∧ p.kind = .number) ∧
    (∃ (s : State) (p : Pending), s.commands = [.provideInput (.number (.ofInt 5))] ∧ s.pend = some p ∧ p.kind = .string) ∧
    (∃ (s : State) (p : Pending), s.commands = [.provideInput (.text ['A'])] ∧ s.pend = some p ∧ p.kind = .string ∧
      isAscii ['A'] = true ∧ s.variant.words - 1 < p.target + (['A'].length + 1) / 2) ∧
    ∃ (s : State) (p : Pending), s.commands = [.provideInput (.text [Char.ofNat 128])] ∧ s.pend = some p ∧
      p.kind = .string ∧ isAscii [Char.ofNat 128] = false :=
  ⟨⟨withCommand (.provideInput (.text [])) State.reset, _, rfl, rfl⟩,
    ⟨withCommand (.provideInput (.number (.ofInt 10000))) (afterRead .basic), _, rfl, rfl, rfl, rfl,
      by rintro ⟨z, hz, -, h⟩; rw [XNum.ofInt_inj] at hz; omega⟩,
    ⟨withCommand (.provideInput (.text [])) (afterRead .basic), _, rfl, rfl, rfl⟩,
    ⟨withCommand (.provideInput (.number (.ofInt 5))) (awaiting .string 99 State.reset), _, rfl, rfl, rfl⟩,
    ⟨withCommand (.provideInput (.text ['A'])) (awaiting .string 999 State.reset), _, rfl, rfl, rfl, by decide, by decide⟩,
    ⟨withCommand (.provideInput (.text [Char.ofNat 128])) (awaiting .string 0 State.reset), _, rfl, rfl, rfl, by decide⟩⟩

/-- A string of two characters whose body word is the last word of memory. -/
theorem witness_ProvidedStringIsEchoed : ∃ s : State, s.variant = .extended ∧
    s.commands = [.provideInput (.text ['H', 'I'])] ∧ s.pend = some ⟨.string, 998⟩ ∧ isAscii ['H', 'I'] = true ∧
    (∀ (j : Nat) (c : Char), ['H', 'I'][2 * j + 1]? = some c → c.toNat < 100) ∧
    998 + (['H', 'I'].length + 1) / 2 < s.variant.words := by
  refine ⟨withCommand (.provideInput (.text ['H', 'I'])) (awaiting .string 998 State.reset), rfl, rfl, rfl, by decide,
    fun j c h => ?_, by decide⟩
  rcases j with _ | j
  · cases h; decide
  · simp [show 2 * (j + 1) + 1 = 2 * j + 3 by omega] at h

theorem witness_ResetZeroesEverything : ∃ s : State, s.commands = [.reset] := ⟨withCommand .reset haltedCore, rfl⟩

/-- Both clauses; the image has entries at both ends of the BASIC ranges. -/
theorem witness_LoadedImageReadsBack :
    (∃ (s : State) (image : Image), s.commands = [.load image] ∧ s.variant = .basic ∧
      (99, .dec (-9999)) ∈ image ∧ ∀ e ∈ image, LoadableEntry s.variant e) ∧
    ∃ (s : State) (image : Image), s.commands = [.loadText "99 ? +4300".toList] ∧
      parseText s.variant "99 ? +4300".toList = .ok image :=
  ⟨⟨withCommand (.load [(0, .dec 9999), (99, .dec (-9999))]) (State.resetOf .basic), _, rfl, rfl, by decide,
      fun e he => loadableEntry_iff.mpr (by revert e; decide)⟩,
    withCommand (.loadText "99 ? +4300".toList) haltedCore, [(99, .dec 4300)], rfl, by decide⟩

/-- The clauses of FailedLoadLeavesTheResetState: addresses one past each end of the range, values one past each end, a
hex value in BASIC, a hex text that is no literal in EXTENDED, and a text that does not parse. -/
theorem witness_FailedLoadLeavesTheResetState :
    (∀ v : Variant, LoadableEntry v (99, .dec 9999)) ∧
    (∀ v : Variant, (-1 : Int) < 0 ∧ ∃ s : State, s.variant = v ∧ (s.variant.words : Int) ≤ v.words) ∧
    ((0 : Int) ≤ 0 ∧ (0 : Int) < Variant.basic.words ∧ (-10000 : Int) < -9999 ∧ 9999 < (10000 : Int)) ∧
    (∃ s : State, s.commands = [.load ([(99, .dec 9999)] ++ (0, .hex ['0', 'x', '1']) :: [])] ∧ s.variant = .basic) ∧
    (∃ s : State, s.commands = [.load ([(99, .dec 9999)] ++ (999, .hex ['0', 'x']) :: [])] ∧
      (999 : Int) < s.variant.words ∧ hexLiteral? ['0', 'x'] = none) ∧
    ∃ s : State, s.commands = [.loadText ['a']] ∧ parseText s.variant ['a'] = .error 0 :=
  ⟨fun v => loadableEntry_iff.mpr (by cases v <;> decide), fun v => ⟨by decide, State.resetOf v, rfl, le_refl _⟩, by decide,
    ⟨withCommand (.load ([(99, .dec 9999)] ++ (0, .hex ['0', 'x', '1']) :: [])) (State.resetOf .basic), rfl, rfl⟩,
    ⟨withCommand (.load ([(99, .dec 9999)] ++ (999, .hex ['0', 'x']) :: [])) State.reset, rfl, by decide, by decide⟩,
    withCommand (.loadText ['a']) State.reset, rfl, by decide⟩

theorem witness_SequentialTextIsItsImage : (-99999 : Int) ∉ [(-99998 : Int), -100000, 9999] := by decide

theorem witness_SnapshotCopiesTheState : ∃ s : State, s.commands = [.snapshot] := ⟨withCommand .snapshot haltedCore, rfl⟩

end Sys2Proof.Tests
end

section
/-! SUPPORT. The output log only grows, except where a command discards the whole state (10_state.md R32, R40). -/

namespace Sys2Proof.Machine

variable {s t : State}

/-- An instruction keeps the output log or appends one entry: only the WRITE class and HALT append (R32). -/
theorem ExecNext.out_prefix {i : Instr} (h : ExecNext s i t) : s.out <+: t.out := by
  cases h with
  | entry _ e => exact List.prefix_append s.out [e]
  | halt => exact List.prefix_append s.out [.outHalt]
  | _ => exact List.prefix_rfl

/-- A STEP that runs no instruction appends nothing, and the fetch before one leaves the log alone. -/
theorem StepNext.out_prefix (h : StepNext s t) : s.out <+: t.out := by
  cases h with
  | exec _ _ _ _ _ _ _ ht => exact ht.out_prefix
  | _ => exact List.prefix_rfl

/-- PROVIDE_INPUT appends nothing (41_io.md R165). -/
theorem provideInput_out {v : InputValue} (h : provideInput v s = .next t) : t.out = s.out := by
  have hr := provideInput_cases v s
  rw [h] at hr
  cases hr <;> rfl

/-- The commands other than RESET and LOAD leave the old output log as a prefix of the new one. -/
theorem runCommand_out_prefix {c : Command} (hc : c.discards = false) (h : runCommand c s = .next t) :
    s.out <+: t.out := by
  cases c with
  | reset | load | loadText => cases hc
  | step => exact (stepCommand_next h).out_prefix
  | provideInput v => exact (provideInput_out h).symm ▸ List.prefix_rfl
  | snapshot => cases h; exact List.prefix_rfl

end Sys2Proof.Machine

namespace Sys2Proof

open Machine

/-- Settles O15: taking the command off the queue changes neither VARIANT nor OUT, and running it keeps the one and, if it
discards nothing, extends the other. -/
theorem variantIsFixedAndOutputOnlyGrows : Obligations.VariantIsFixedAndOutputOnlyGrows := by
  intro s t h
  refine ⟨(runCommand_variant h).trans (nextCommand_variant s), fun hc => ?_⟩
  obtain ⟨es, hes⟩ := runCommand_out_prefix hc h
  rw [nextCommand_toCoreState] at hes
  exact ⟨es, hes.symm⟩

end Sys2Proof
end

section
/-! SUPPORT. Everything a command can do, said once for the five of them, and the frame of STEP that follows
(10_state.md R36, R40). -/

namespace Sys2Proof.Machine

variable {s t : State} {c : Command}

/-- The memory a RESET or LOAD leaves: all zero, or a valid image installed in it (70_reset_and_hazards.md R332). -/
def Installed (v : Variant) (m : Memory) : Prop :=
  m = [] ∨ ∃ image : Image, (∀ e ∈ image, entryError? v e = none) ∧ m = install image []

/-- The next states of a command. -/
inductive CommandNext (s : State) : Command → State → Prop where
  | discard (c : Command) (hc : c.discards = true) (r : Reply) (m : Memory) (hm : Installed s.variant m) :
      CommandNext s c { s.resetCore r with memory := m }
  | step (t : State) (h : StepNext s t) : CommandNext s .step t
  | input (v : InputValue) (t : State) (h : InputResult s (.next t)) : CommandNext s (.provideInput v) t
  | snapshot : CommandNext s .snapshot { s with reply := .snapshot s.toCoreState }

theorem CommandNext.loadImage (hc : c.discards = true) (image : Image) (s : State) :
    CommandNext s c (loadImage image s) := by
  rcases loadImage_cases image s with ⟨e, n, h⟩ | ⟨hok, h⟩ <;> rw [h]
  · exact .discard c hc _ [] (.inl rfl)
  · exact .discard c hc _ _ (.inr ⟨image, firstError?_eq_none.mp hok, rfl⟩)

theorem CommandNext.loadText (hc : c.discards = true) (u : Text) (s : State) : CommandNext s c (loadText u s) := by
  rcases loadText_cases u s with ⟨e, n, h⟩ | ⟨image, hok, h⟩ <;> rw [h]
  · exact .discard c hc _ [] (.inl rfl)
  · exact .discard c hc _ _ (.inr ⟨image, firstError?_eq_none.mp hok, rfl⟩)

/-- Everything a command that answers a next state does. -/
theorem runCommand_next (h : runCommand c s = .next t) : CommandNext s c t := by
  cases c with
  | reset => cases h; exact .discard _ rfl _ [] (.inl rfl)
  | load image => cases h; exact .loadImage rfl image s
  | loadText u => cases h; exact .loadText rfl u s
  | step => exact .step t (stepCommand_next h)
  | provideInput v =>
    have hr := provideInput_cases v s
    rw [show provideInput v s = .next t from h] at hr
    exact .input v t hr
  | snapshot => cases h; exact .snapshot

/-- The registers that only an instruction, or a command that discards the whole state, can change: ACC, FM and HLT
(10_state.md R24, R29, R30). -/
def SameAccFmHlt (s t : State) : Prop := t.acc = s.acc ∧ t.fm = s.fm ∧ t.hlt = s.hlt

/-- Every other way a command ends leaves ACC, FM and HLT alone. -/
theorem CommandNext.same_or_executes (hc : c.discards = false) (h : CommandNext s c t) :
    SameAccFmHlt s t ∨ (c = .step ∧ ∃ i, decode s.fetched = .ok i ∧
      ExecNext (s.latch s.fetched i.opcode i.operand) i t) := by
  cases h with
  | discard _ hd => exact absurd hd (by simp [hc])
  | snapshot => exact .inl ⟨rfl, rfl, rfl⟩
  | input v _ h => cases h <;> exact .inl ⟨rfl, rfl, rfl⟩
  | step _ h =>
    cases h with
    | exec _ _ _ i _ hi _ hx => exact .inr ⟨rfl, i, hi, hx⟩
    | _ => exact .inl ⟨rfl, rfl, rfl⟩

/-- The same of a step of the machine, which first takes the command off the queue. -/
theorem step_same_or_executes (hc : (nextCommand s).1.discards = false) (h : step s = .next t) :
    SameAccFmHlt s t ∨ ((nextCommand s).1 = .step ∧ ∃ i, decode s.fetched = .ok i ∧
      ExecNext ((nextCommand s).2.latch s.fetched i.opcode i.operand) i t) := by
  have := (runCommand_next h).same_or_executes hc
  simpa only [SameAccFmHlt, nextCommand_toCoreState, nextCommand_fetched] using this

/-- An instruction changes ACC only if it is one of the listed ones and succeeds (R24). -/
theorem ExecNext.acc_eq_or {i : Instr} (h : ExecNext s i t) :
    t.acc = s.acc ∨ (i.writesAcc = true ∧ t.reply = .outcome (.ok none)) := by
  cases h with
  | acc _ x hi => exact .inr ⟨hi, rfl⟩
  | accFloat _ x _ hi => exact .inr ⟨hi, rfl⟩
  | _ => exact .inl rfl

/-- An instruction changes FM only by setting it, and only a float instruction that succeeds does (R30). -/
theorem ExecNext.fm_eq_or {i : Instr} (h : ExecNext s i t) :
    t.fm = s.fm ∨ (t.fm = true ∧ i.isFloat = true ∧ t.reply = .outcome (.ok none)) := by
  cases h with
  | accFloat _ x _ _ hf => exact .inr ⟨rfl, hf, rfl⟩
  | storeFloat => exact .inr ⟨rfl, rfl, rfl⟩
  | _ => exact .inl rfl

/-- An instruction changes HLT only if it is a HALT (44_control.md R263). -/
theorem ExecNext.hlt_eq_or {i : Instr} (h : ExecNext s i t) :
    t.hlt = s.hlt ∨ ∃ a, i = .halt a ∧ t.run = false ∧ t.ic = s.ic ∧ t.out = s.out ++ [.outHalt] := by
  cases h with
  | halt a => exact .inr ⟨a, rfl, rfl, rfl, rfl⟩
  | _ => exact .inl rfl

/-- RESET and LOAD leave HLT false (70_reset_and_hazards.md R330, R332). -/
theorem CommandNext.hlt_of_discards (hc : c.discards = true) (h : CommandNext s c t) : t.hlt = false := by
  cases h with
  | discard => rfl
  | _ => cases hc

/-- A request that a command ends was ended by a RESET, a LOAD or an accepted input (10_state.md R31, 41_io.md R165). -/
theorem CommandNext.pend_ended {p : Pending} (h : CommandNext s c t) (hp : s.pend = some p) (ht : t.pend ≠ some p) :
    c.discards = true ∨
    ((∃ v, c = .provideInput v) ∧ t.pend = none ∧ t.ic = s.ic + 1 ∧ t.reply = .outcome (.ok none)) := by
  cases h with
  | discard _ hc => exact .inl hc
  | snapshot => exact absurd hp ht
  | input v _ h =>
    cases h with
    | error => exact absurd hp ht
    | number | string => exact .inr ⟨⟨v, rfl⟩, rfl, rfl, rfl⟩
  | step _ h =>
    cases h with
    | noop => exact absurd hp ht
    | counter _ h2 | opcode _ h2 | exec _ h2 => simp [h2] at hp

end Sys2Proof.Machine

namespace Sys2Proof

open Machine

/-- Settles O22: a step that sets HLT is no RESET or LOAD, so it ran an instruction, and that is a HALT. -/
theorem onlyHaltSetsHalted : Obligations.OnlyHaltSetsHalted := by
  intro s t h hs ht
  cases hc : (nextCommand s).1.discards with
  | true => simp [(runCommand_next h).hlt_of_discards hc] at ht
  | false =>
    rcases step_same_or_executes hc h with ⟨-, -, he⟩ | ⟨-, i, hi, hx⟩
    · simp [he, hs] at ht
    · rcases hx.hlt_eq_or with he | ⟨a, rfl, hrun, hic, hout⟩
      · simp [he, hs] at ht
      · exact ⟨a, hi, hrun, by simpa using hic, by simpa using hout⟩

/-- Settles O24: the one step besides RESET and LOAD that ends a request is an accepted PROVIDE_INPUT. -/
theorem pendingEndsOnlyByInputResetOrLoad : Obligations.PendingEndsOnlyByInputResetOrLoad := by
  intro s t p h hp _ ht
  have := (runCommand_next h).pend_ended (by simpa using hp) ht
  rwa [nextCommand_toCoreState] at this

/-- Settles O25: FM is kept where no instruction runs, and an instruction only sets it. -/
theorem floatModeIsSticky : Obligations.FloatModeIsSticky := by
  intro s t h hc
  have key : t.fm = s.fm ∨
      (t.fm = true ∧ ∃ i, decode s.fetched = .ok i ∧ i.isFloat = true ∧ t.reply = .outcome (.ok none)) := by
    rcases step_same_or_executes hc h with ⟨-, he, -⟩ | ⟨-, i, hi, hx⟩
    · exact .inl he
    · rcases hx.fm_eq_or with he | ⟨hfm, hf, hr⟩
      · exact .inl (by simpa using he)
      · exact .inr ⟨hfm, i, hi, hf, hr⟩
  rcases key with he | ⟨hfm, hex⟩
  · exact ⟨fun hs => he.trans hs, fun hs ht => by simp [he, hs] at ht⟩
  · exact ⟨fun _ => hfm, fun _ _ => hex⟩

/-- Settles O26: ACC is kept where no instruction runs, and by every instruction that is not listed. -/
theorem accumulatorIsWrittenOnlyByTheListed : Obligations.AccumulatorIsWrittenOnlyByTheListed := by
  intro s t h hne
  cases hc : (nextCommand s).1.discards with
  | true => exact .inl rfl
  | false =>
    rcases step_same_or_executes hc h with ⟨he, -, -⟩ | ⟨hstep, i, hi, hx⟩
    · exact absurd he hne
    · rcases hx.acc_eq_or with he | ⟨hw, hr⟩
      · exact absurd (by simpa using he) hne
      · exact .inr ⟨hstep, i, hi, hw, hr⟩

end Sys2Proof
end

section
/-! SUPPORT. The outcome of a STEP (40_cycle.md R137), and that no command reads the reply of the one before it
(decision D32 of the spec). -/

namespace Sys2Proof.Machine

variable {s t : State}

/-- The four ways of R137: what a command that began with the log `out` and ended in `t` answers and appends. -/
def EndsInOneOfFour (out : List OutEntry) (t : State) : Prop :=
  (t.reply = .outcome (.ok none) ∧ t.out = out) ∨
  (∃ e : OutEntry, t.reply = .outcome (.ok (some e.text)) ∧ t.out = out ++ [e]) ∨
  (∃ k : InputKind, t.reply = .outcome (.waiting k) ∧ t.out = out ∧ t.pend = some ⟨k, t.opd⟩) ∨
  (∃ e : ErrorLabel, t.reply = .outcome (.failed e) ∧ t.out = out)

/-- An instruction whose operand is latched in OPD ends in one of the four ways. -/
theorem ExecNext.endsInOneOfFour {i : Instr} (h : ExecNext s i t) (hd : s.opd = i.operand) :
    EndsInOneOfFour s.out t := by
  cases h with
  | error _ e => exact .inr (.inr (.inr ⟨e, rfl, rfl⟩))
  | read a => exact .inr (.inr (.inl ⟨.number, rfl, rfl, by simp [hd, Instr.operand]⟩))
  | readString a => exact .inr (.inr (.inl ⟨.string, rfl, rfl, by simp [hd, Instr.operand]⟩))
  | entry _ e => exact .inr (.inl ⟨e, rfl, rfl⟩)
  | halt => exact .inr (.inl ⟨.outHalt, rfl, rfl⟩)
  | acc | accFloat | store | storeFloat | jump | stay => exact .inl ⟨rfl, rfl⟩

/-- A STEP without an instruction is the no-op of R131 or an error; one with an instruction ends as that does. -/
theorem StepNext.endsInOneOfFour (h : StepNext s t) : EndsInOneOfFour s.out t := by
  cases h with
  | noop => exact .inl ⟨rfl, rfl⟩
  | counter => exact .inr (.inr (.inr ⟨.eCounter, rfl, rfl⟩))
  | opcode => exact .inr (.inr (.inr ⟨.eOpcode, rfl, rfl⟩))
  | exec _ _ _ i _ _ _ hx => exact hx.endsInOneOfFour rfl

/-- No command of the host reads the reply of the command before it. -/
theorem runCommand_reply (c : Command) (s : State) (r : Reply) :
    runCommand c { s with reply := r } = runCommand c s := by
  cases c with
  | reset | snapshot | load | loadText | provideInput => rfl
  | step => exact stepCommand_reply s r

/-- Taking a command off the queue does not read the reply either. -/
theorem nextCommand_reply (s : State) (r : Reply) :
    nextCommand { s with reply := r } = ((nextCommand s).1, { (nextCommand s).2 with reply := r }) := by
  obtain ⟨core, v, queue, r'⟩ := s
  cases queue <;> rfl

end Sys2Proof.Machine

namespace Sys2Proof

open Machine

/-- Settles O13: an empty queue makes the step a STEP command, and each end of one is one of the four. -/
theorem stepOutcomeIsOneOfFour : Obligations.StepOutcomeIsOneOfFour := by
  intro s t hq h
  exact (stepCommand_next (step_nil hq ▸ h)).endsInOneOfFour

/-- Settles O16: which command comes next does not depend on the reply, and no command reads it. -/
theorem lastReplyIsNeverRead : Obligations.LastReplyIsNeverRead := by
  intro s r
  rw [step, nextCommand_reply]
  exact runCommand_reply _ _ r

end Sys2Proof
end

section
/-! SUPPORT. The invariants hold after reset and every step keeps them: one lemma per update of the state, then one per
inversion (10_state.md R35). -/

namespace Sys2Proof.Machine

variable {s t : State}

/-- The reset state of either variant satisfies the invariants (10_state.md R34). -/
theorem inv_resetOf (v : Variant) : Inv (State.resetOf v) where
  memory_wf := rfl
  memory_inside _ hc := by cases hc
  memory_words _ hc := by cases hc
  acc_ok := numberOk_zero v
  ir_ok := wordOk_zero v
  ic_le := Nat.zero_le _
  opc_lt _ := Nat.zero_lt_succ _
  opd_lt := Nat.zero_lt_succ _
  fm_basic _ := rfl
  hlt_run _ := rfl
  hlt_pend _ := rfl
  pend_ok _ hp := by cases hp

/-! ### One rule per update -/

theorem Inv.setAcc (hi : Inv s) {x : XNum} (hx : numberOk s.variant x = true) : Inv (s.setAcc x) :=
  { hi with acc_ok := hx }

theorem Inv.setFloatMode (hi : Inv s) (hv : s.variant = .extended) : Inv s.setFloatMode :=
  { hi with fm_basic := fun hb => by simp [hv] at hb }

theorem Inv.fallThrough (hi : Inv s) (hp : s.pend = none) (h : s.ic < s.variant.words) (o : Option Text) :
    Inv (s.fallThrough o) :=
  { hi with ic_le := h, pend_ok := fun p hq => by simp [hp] at hq }

theorem Inv.jump (hi : Inv s) (hp : s.pend = none) {a : Nat} (h : a ≤ s.variant.words) : Inv (s.jump a) :=
  { hi with ic_le := h, pend_ok := fun p hq => by simp [hp] at hq }

theorem Inv.resume (hi : Inv s) (h : s.ic < s.variant.words) : Inv s.resume :=
  { hi with ic_le := h, hlt_pend := fun _ => rfl, pend_ok := fun p hq => by simp at hq }

theorem Inv.setHalted (hi : Inv s) (hp : s.pend = none) : Inv s.setHalted :=
  { hi with hlt_run := fun _ => rfl, hlt_pend := fun _ => hp }

theorem Inv.append (hi : Inv s) (e : OutEntry) : Inv (s.append e) :=
  { hi with }

/-- The fetch and decode writes: no request is pending, and the latched word and fields are in their domains. -/
theorem Inv.latch (hi : Inv s) (hh : s.hlt = false) (hp : s.pend = none) {opc opd : Nat}
    (ho : s.variant = .basic → opc < 100) (hd : opd < 100) : Inv (s.latch s.fetched opc opd) :=
  { hi with
    ir_ok := hi.word s.ic
    opc_lt := ho
    opd_lt := hd
    hlt_run := fun h => by simp [hh] at h
    pend_ok := fun p hq => by simp [hp] at hq }

/-- Replacing the memory while no request is pending. -/
theorem Inv.withMemory (hi : Inv s) (hp : s.pend = none) {m : Memory} (hw : Memory.wf m = true)
    (hm : ∀ c ∈ m, c.1 < s.variant.words ∧ wordOk s.variant c.2 = true) : Inv { s with memory := m } :=
  { hi with
    memory_wf := hw
    memory_inside := fun c hc => (hm c hc).1
    memory_words := fun c hc => (hm c hc).2
    pend_ok := fun p hq => by simp [hp] at hq }

/-- Every entry of the memory is inside it and of the variant. -/
theorem Inv.entry (hi : Inv s) {c : Nat × Word} (hc : c ∈ s.memory) :
    c.1 < s.variant.words ∧ wordOk s.variant c.2 = true :=
  ⟨hi.memory_inside c hc, hi.memory_words c hc⟩

theorem Inv.setWord (hi : Inv s) (hp : s.pend = none) {a : Nat} {w : Word} (ha : a < s.variant.words)
    (hw : wordOk s.variant w = true) : Inv (s.setWord a w) := by
  refine hi.withMemory hp (Memory.wf_write hi.memory_wf) fun c hc => ?_
  rcases Memory.mem_write hc with rfl | hc
  · exact ⟨ha, hw⟩
  · exact hi.entry hc

theorem Inv.setWords (hi : Inv s) (hp : s.pend = none) {a : Nat} {ws : List Word}
    (ha : a + ws.length ≤ s.variant.words) (hw : ∀ w ∈ ws, wordOk s.variant w = true) : Inv (s.setWords a ws) := by
  refine hi.withMemory hp (Memory.wf_writeAll ws hi.memory_wf) fun c hc => ?_
  rcases Memory.mem_writeAll ws hc with ⟨j, w, hj, hmem, rfl⟩ | hc
  · exact ⟨by dsimp only; omega, hw w hmem⟩
  · exact hi.entry hc

/-! ### Instructions -/

/-- The state in which the decoded instruction `i` is dispatched (40_cycle.md R133 to R135): Ready, with the word at IC
latched. -/
structure Dispatched (s : State) (i : Instr) : Prop where
  inv : Inv s
  hlt : s.hlt = false
  pend : s.pend = none
  ic : s.ic < s.variant.words
  ir : s.ir = Memory.read s.memory s.ic
  opc : s.opc = i.opcode
  opd : s.opd = i.operand
  decoded : decode s.ir = .ok i

theorem Inv.dispatched (hi : Inv s) (hh : s.hlt = false) (hp : s.pend = none) (h : s.ic < s.variant.words) {i : Instr}
    (hd : decode s.fetched = .ok i) : Dispatched (s.latch s.fetched i.opcode i.operand) i where
  inv := hi.latch hh hp (fun _ => by have := i.opcode_le; omega) (operand_lt_of_decode hd)
  hlt := hh
  pend := hp
  ic := h
  ir := rfl
  opc := rfl
  opd := rfl
  decoded := hd

/-- The operand of the instruction that suspended is the target of its request (10_state.md R31). -/
theorem Pending.instr_operand (p : Pending) : p.instr.operand = p.target := by
  unfold Pending.instr
  cases p.kind <;> rfl

/-- A dispatched instruction that suspends records the request R35.5 asks for. -/
theorem Dispatched.suspend {p : Pending} (hd : Dispatched s p.instr) (ht : p.instr.inTable s.variant = true) :
    Inv (s.suspend p.kind p.target) :=
  { hd.inv with
    hlt_pend := fun h => by simp [hd.hlt] at h
    pend_ok := by
      rintro q hq
      cases hq
      exact ⟨hd.ic, hd.ir, p.instr_operand.symm.trans hd.opd.symm, hd.opc, hd.decoded, ht⟩ }

/-- The numbers an instruction puts into ACC are in its domain (10_state.md R24). -/
theorem Inv.numberOk_result (hi : Inv s) {x : XNum} (hx : (∃ a, Memory.read s.memory a = .num x) ∨
    (∃ r : Int, x = .ofInt r ∧ r.natAbs ≤ 9999) ∨ s.variant = .extended) : numberOk s.variant x = true := by
  rcases hx with ⟨a, ha⟩ | ⟨r, rfl, hr⟩ | hv
  · have := hi.word a
    rwa [ha] at this
  · rcases s.variant.basic_or_extended with hv | hv <;> rw [hv]
    · exact numberOk_basic.mpr ⟨r, rfl, hr⟩
    · exact numberOk_extended _
  · rw [hv]; exact numberOk_extended x

/-- Every instruction keeps the invariants. -/
theorem ExecNext.inv {i : Instr} (hd : Dispatched s i) (h : ExecNext s i t) : Inv t := by
  have hi := hd.inv
  cases h with
  | error _ e => exact hi.congr rfl rfl
  | read a => exact Dispatched.suspend (p := ⟨.number, a⟩) hd (by cases s.variant <;> rfl)
  | readString a hv => exact Dispatched.suspend (p := ⟨.string, a⟩) hd (by rw [hv]; rfl)
  | entry _ e => exact (hi.append e).fallThrough hd.pend hd.ic _
  | acc _ x _ _ hx => exact (hi.setAcc (hi.numberOk_result hx)).fallThrough hd.pend hd.ic none
  | accFloat _ x hv =>
    exact ((hi.setAcc (hi.numberOk_result (x := x) (.inr (.inr hv)))).setFloatMode hv).fallThrough hd.pend hd.ic none
  | store a ha => exact (hi.setWord hd.pend ha (w := .num s.acc) hi.acc_ok).fallThrough hd.pend hd.ic none
  | storeFloat a hv ha =>
    exact ((hi.setWord hd.pend ha (w := .num s.acc) hi.acc_ok).setFloatMode hv).fallThrough hd.pend hd.ic none
  | jump => exact hi.jump hd.pend (operand_lt_words _ hd.decoded).le
  | stay => exact hi.fallThrough hd.pend hd.ic none
  | halt a => exact ((hi.setHalted hd.pend).append .outHalt).congr rfl rfl

/-! ### Commands -/

/-- Every STEP keeps the invariants. -/
theorem StepNext.inv (hi : Inv s) (h : StepNext s t) : Inv t := by
  cases h with
  | noop => exact hi.congr rfl rfl
  | counter h1 => exact { hi with hlt_run := fun hh => absurd hh (by simp [h1]) }
  | opcode h1 h2 _ opc opd ho hd =>
    exact (hi.latch h1 h2 (fun hv => ho hv (hv ▸ hi.word s.ic)) (hd hi.opd_lt)).congr rfl rfl
  | exec h1 h2 hic i _ hdec _ hx => exact hx.inv (hi.dispatched h1 h2 hic hdec)

/-- A request for a string is outstanding in EXTENDED only: READ_STRING is not in the BASIC table (30_encoding.md R95). -/
theorem Inv.extended_of_string (hi : Inv s) {p : Pending} (hp : s.pend = some p) (hk : p.kind = .string) :
    s.variant = .extended := by
  obtain ⟨-, -, -, -, -, ht⟩ := hi.pend_ok p hp
  rcases s.variant.basic_or_extended with hv | hv
  · simp [Pending.instr, hk, hv, Instr.inTable] at ht
  · exact hv

/-- Every PROVIDE_INPUT keeps the invariants: the words it writes are of the variant, and IC is inside memory while a
request is outstanding (41_io.md R165, R166). -/
theorem InputResult.inv (hi : Inv s) (h : InputResult s (.next t)) : Inv t := by
  cases h with
  | error e => exact hi.congr rfl rfl
  | number p x hp _ hx ht =>
    obtain ⟨hic, -⟩ := hi.pend_ok p hp
    exact (hi.resume hic).setWord rfl ht (w := .num x) hx
  | string p ws hp hk ht =>
    obtain ⟨hic, -⟩ := hi.pend_ok p hp
    refine (hi.resume hic).setWords rfl (by simpa using ht) fun w hw => ?_
    obtain ⟨n, -, rfl⟩ := List.mem_map.mp hw
    rw [State.resume_variant, hi.extended_of_string hp hk]
    exact numberOk_extended (.ofInt n)

/-- The memory a RESET or LOAD leaves is canonical, inside the address range and of words of the variant
(70_reset_and_hazards.md R332 to R334). -/
theorem Installed.ok {v : Variant} {m : Memory} (h : Installed v m) :
    Memory.wf m = true ∧ ∀ c ∈ m, c.1 < v.words ∧ wordOk v c.2 = true := by
  rcases h with rfl | ⟨image, hok, rfl⟩
  · exact ⟨rfl, fun c hc => by cases hc⟩
  · refine ⟨Memory.wf_install image rfl, fun c hc => ?_⟩
    rcases Memory.mem_install hc with ⟨e, he, rfl⟩ | hc
    · obtain ⟨h0, hlt, hw⟩ := entryError?_eq_none (hok e he)
      exact ⟨by dsimp only; omega, hw⟩
    · cases hc

/-- Every command keeps the invariants. -/
theorem CommandNext.inv {c : Command} (hi : Inv s) (h : CommandNext s c t) : Inv t := by
  cases h with
  | discard _ _ r m hm =>
    obtain ⟨hw, hmem⟩ := hm.ok
    exact ((inv_resetOf s.variant).withMemory rfl hw hmem).congr rfl rfl
  | step _ h => exact h.inv hi
  | input _ _ h => exact h.inv hi
  | snapshot => exact hi.congr rfl rfl

/-- No command faults: the words and ACC are those of the variant, and the target of a request is a decoded operand
(10_state.md R35.5). -/
theorem Inv.runCommand_ne_fault (hi : Inv s) (c : Command) (f : Fault) : runCommand c s ≠ .fault f := by
  intro h
  cases c with
  | reset | load | loadText | snapshot => cases h
  | step =>
    have hstop : stepCommand s = .fault f := h
    obtain ⟨h1, h2, hic, i, hd, he⟩ := stepCommand_stops (s := s) (by simp [hstop])
    exact (hi.dispatched h1 h2 hic hd).inv.not_execFault (exec_fault (he.symm.trans hstop))
  | provideInput v =>
    have hr := provideInput_cases v s
    rw [show provideInput v s = .fault f from h] at hr
    cases hr with
    | fault p hp ht =>
      obtain ⟨-, -, htarget, -⟩ := hi.pend_ok p hp
      have := hi.opd_lt
      have := s.variant.words_ge
      omega

/-- A halted core answers STEP, PROVIDE_INPUT and SNAPSHOT with its architectural state unchanged (10_state.md R40). -/
theorem Inv.runCommand_of_halted (hi : Inv s) (hh : s.hlt = true) {c : Command} (hc : c.discards = false) :
    ∃ t, runCommand c s = .next t ∧ t.toCoreState = s.toCoreState := by
  cases c with
  | reset | load | loadText => cases hc
  | step => exact ⟨_, stepCommand_noop (.inl hh), rfl⟩
  | provideInput v => exact ⟨s.raise .iNotWaiting, by simp [runCommand, provideInput, hi.hlt_pend hh], rfl⟩
  | snapshot => exact ⟨_, rfl, rfl⟩

end Sys2Proof.Machine

namespace Sys2Proof

open Machine

/-- Settles O17, field by field of the reset values. -/
theorem invariantsHoldAtReset : Obligations.InvariantsHoldAtReset := inv_resetOf

/-- Settles O18: taking a command off the queue and running it both keep the invariants. -/
theorem everyStepKeepsTheInvariants : Obligations.EveryStepKeepsTheInvariants :=
  fun _ _ hi h => (runCommand_next h).inv hi.nextCommand

/-- Settles O20: the invariants hold when the command is run, and no command faults under them. -/
theorem noStepFaultsUnderTheInvariants : Obligations.NoStepFaultsUnderTheInvariants :=
  fun _ f hi => hi.nextCommand.runCommand_ne_fault _ f

/-- Settles O23: the halted core is halted when the command is run, and no request is outstanding then. -/
theorem haltedEndsOnlyByResetOrLoad : Obligations.HaltedEndsOnlyByResetOrLoad := by
  intro s hi hh hc
  obtain ⟨t, ht, he⟩ := hi.nextCommand.runCommand_of_halted (by simpa using hh) hc
  exact ⟨t, ht, he.trans (nextCommand_toCoreState s)⟩

end Sys2Proof
end

section
/-! SUPPORT. Which commands write memory: the frame of STEP on memory, and the STORE over the next instruction
(20_memory.md R66, R72). -/

namespace Sys2Proof.Machine

variable {s t : State}

/-- An instruction leaves memory alone, or is a STORE or STORE_FLOAT that writes ACC to the word at its operand. -/
theorem ExecNext.memory_eq_or {i : Instr} (h : ExecNext s i t) :
    t.memory = s.memory ∨
    ∃ a, (i = .store a ∨ i = .storeFloat a) ∧ t.memory = Memory.write a (.num s.acc) s.memory := by
  cases h with
  | store a => exact .inr ⟨a, .inl rfl, rfl⟩
  | storeFloat a => exact .inr ⟨a, .inr rfl, rfl⟩
  | _ => exact .inl rfl

/-- A STEP that runs no instruction leaves memory alone, and so does the fetch before one. -/
theorem StepNext.memory_eq_or (h : StepNext s t) :
    t.memory = s.memory ∨
    ∃ a, (decode s.fetched = .ok (.store a) ∨ decode s.fetched = .ok (.storeFloat a)) ∧
      t.memory = Memory.write a (.num s.acc) s.memory := by
  cases h with
  | exec _ _ _ i _ hi _ hx =>
    rcases hx.memory_eq_or with hm | ⟨a, rfl | rfl, hm⟩
    · exact .inl hm
    · exact .inr ⟨a, .inl hi, hm⟩
    · exact .inr ⟨a, .inr hi, hm⟩
  | _ => exact .inl rfl

/-- A step of the machine whose command is STEP is a STEP of the same core. -/
theorem stepNext_of_step (hc : (nextCommand s).1 = .step) (h : step s = .next t) : StepNext (nextCommand s).2 t := by
  rw [step, hc] at h
  exact stepCommand_next h

/-- A STEP in control state Ready that fetches an instruction runs it on the latched state (40_cycle.md R130 to R135). -/
theorem Stepping.step_eq_exec (hs : Stepping s) (hic : s.ic < s.variant.words) {i : Instr}
    (hi : decode s.fetched = .ok i) : step s = exec i (s.latch s.fetched i.opcode i.operand) := by
  obtain ⟨hq, hh, hp⟩ := stepping_iff.mp hs
  rw [step_nil hq, stepCommand_ready hh hp, fetchAndExecute_inside hic, executeWord_ok hi]

/-- A STORE inside memory writes ACC to the word at its operand and falls through (42_load_store.md R201). -/
theorem exec_store_of_lt {a : Nat} (ha : a < s.variant.words) :
    exec (.store a) s = .next ((s.setWord a (.num s.acc)).fallThrough none) := withAddress_of_lt ha _

end Sys2Proof.Machine

namespace Sys2Proof

open Machine

/-- Settles O27: the memory of a STEP is the old one or one write of ACC to it, and that write is read at its address
only. -/
theorem stepWritesMemoryOnlyByStore : Obligations.StepWritesMemoryOnlyByStore := by
  intro s t h hc
  have key := (stepNext_of_step hc h).memory_eq_or
  simp only [nextCommand_toCoreState, nextCommand_fetched] at key
  rcases key with hm | ⟨a, hi, hm⟩ <;> rw [hm]
  · exact .inl fun _ => rfl
  · exact .inr ⟨a, hi, Memory.read_write_same .., fun b hb => Memory.read_write_other hb _ _⟩

/-- Settles O28: the STORE falls through to the word it wrote, and reading that word back gives ACC. -/
theorem storedWordIsFetchedByTheNextStep : Obligations.StoredWordIsFetchedByTheNextStep := by
  intro s hs ha hi
  exact ⟨_, (hs.step_eq_exec (by omega) hi).trans (exec_store_of_lt ha), rfl, Memory.read_write_same ..⟩

end Sys2Proof
end

section
/-! SUPPORT. The decoder, the encoder and the bit view of a word agree (30_encoding.md R91, R92, R97, R98, R100, R106). -/

namespace Sys2Proof

/-! ### The bit view -/

/-- A word of at most four digits has a pattern, the pattern denotes the word, and its nibble pairs are the two fields of
the decode split (R91, R100). -/
theorem exists_bcd17 {z : Int} (h : z.natAbs ≤ 9999) : ∃ b, bcd17? z = some b ∧ b < 2 ^ 17 ∧ bcd17Word? b = some z ∧
    (splitInt z).1 = 10 * (b / 2 ^ 12 % 16) + b / 2 ^ 8 % 16 ∧ (splitInt z).2 = 10 * (b / 2 ^ 4 % 16) + b % 16 := by
  obtain ⟨hm, hopc, hopd⟩ := four_digits h
  have hg : (if z < 0 then 1 else 0) ≤ 1 := by split <;> decide
  obtain ⟨hb, -, e3, e2, e1, e0⟩ :=
    bcd17_fields hg (digit_le 3 _) (digit_le 2 _) (digit_le 1 _) (digit_le 0 _) rfl
  refine ⟨_, bcd17?_of_le h, hb, ?_, ?_, ?_⟩
  · have hsign : (if z < 0 then 1 else 0) = 1 ↔ z < 0 := by split <;> simp [*]
    rw [bcd17Word?_digits hg (digit_le _ _) (digit_le _ _) (digit_le _ _) (digit_le _ _) rfl, ← hm, Option.some.injEq]
    simp only [hsign]
    split <;> omega
  · rw [splitInt_fst, hopc, e3, e2]
  · rw [splitInt_snd, hopd, e1, e0]

/-- The decoder of table words reads a pattern of at most 17 bits whole (log entry 16). -/
theorem decodeTableWord_of_bcd17Word? {b : Nat} {z : Int} {i : Instr} (hb : b < 2 ^ 17) (hz : bcd17Word? b = some z)
    (hi : decode (.ofInt z) = .ok i) : decodeTableWord 24 b = some i := by
  rw [decodeTableWord, tableWord?, Nat.mod_eq_of_lt (by omega), hz, Option.bind_some, hi]
  rfl

/-! ### The decoder of integers -/

/-- An integer decodes by its split alone (R91). -/
theorem decode_ofInt_eq_ok {z : Int} {i : Instr} :
    decode (.ofInt z) = .ok i ↔ splitInt z = (i.opcode, i.operand) := by
  rw [decode_eq_ok, Word.int?_ofInt]
  simp

/-- The split ignores the sign (R97). -/
theorem splitInt_neg (z : Int) : splitInt (-z) = splitInt z := by rw [splitInt, Int.natAbs_neg, splitInt]

/-- The encoding puts together what the split takes apart (R91, R92). -/
theorem encode_of_splitInt {z : Int} {i : Instr} (h : splitInt z = (i.opcode, i.operand)) :
    encode i = z.natAbs := by
  obtain ⟨h1, h2⟩ := Prod.mk.inj h
  rw [encode, ← h1, ← h2, ← Nat.cast_mul, ← Nat.cast_add, Nat.div_add_mod']

/-- A well-formed instruction is encoded in four digits (R92). -/
theorem natAbs_encode_le {i : Instr} (h : i.wellFormed = true) : (encode i).natAbs ≤ 9999 := by
  have ho : i.operand < 100 := of_decide_eq_true h
  have := i.opcode_le
  simp only [encode, Config.opdiv]
  omega

/-! ### Hexadecimal literals -/

/-- A character lies between two others exactly when its code does. -/
theorem char_between_iff (a b c : Char) : (a ≤ c ∧ c ≤ b) ↔ a.toNat ≤ c.toNat ∧ c.toNat ≤ b.toNat := Iff.rfl

/-- The hexadecimal digits and their values (R106). -/
theorem hexDigit?_eq_some {c : Char} {n : Nat} : hexDigit? c = some n ↔
    (n ≤ 9 ∧ c.toNat = 48 + n) ∨ (10 ≤ n ∧ n ≤ 15 ∧ (c.toNat + 10 = 65 + n ∨ c.toNat + 10 = 97 + n)) := by
  have codes : '0'.toNat = 48 ∧ '9'.toNat = 57 ∧ 'A'.toNat = 65 ∧ 'F'.toNat = 70 ∧ 'a'.toNat = 97 ∧ 'f'.toNat = 102 := by
    decide
  obtain ⟨e0, e9, eA, eF, ea, ef⟩ := codes
  simp only [hexDigit?, char_between_iff, e0, e9, eA, eF, ea, ef]
  split_ifs <;> simp only [Option.some.injEq, false_iff] <;> omega

/-- A text spells a number exactly when each of its characters is a hexadecimal digit. -/
theorem exists_hexDigits?_iff : ∀ {t : Text} {a : Nat},
    (∃ n, hexDigits? a t = some n) ↔ ∀ d ∈ t, ∃ k, hexDigit? d = some k
  | [], a => by simp [hexDigits?]
  | c :: cs, a => by
    rw [List.forall_mem_cons]
    cases hc : hexDigit? c with
    | none => simp [hexDigits?, hc]
    | some d => simpa [hexDigits?, hc] using exists_hexDigits?_iff (t := cs)

/-- A literal is `0x` and at least one digit, and its value is what the digits spell (R106). -/
theorem hexLiteral?_eq_some {t : Text} {n : Nat} :
    hexLiteral? t = some n ↔ ∃ c cs, t = '0' :: 'x' :: c :: cs ∧ hexDigits? 0 (c :: cs) = some n := by
  constructor
  · intro h
    unfold hexLiteral? at h
    split at h
    · exact ⟨_, _, rfl, h⟩
    · cases h
  · rintro ⟨c, cs, rfl, h⟩
    exact h

theorem exists_hexLiteral?_iff {t : Text} : (∃ n, hexLiteral? t = some n) ↔
    ∃ (c : Char) (cs : Text), t = '0' :: 'x' :: c :: cs ∧ ∀ d ∈ c :: cs, ∃ k, hexDigit? d = some k := by
  simp only [hexLiteral?_eq_some, ← exists_hexDigits?_iff (a := 0)]
  constructor
  · rintro ⟨n, c, cs, ht, hn⟩
    exact ⟨c, cs, ht, n, hn⟩
  · rintro ⟨c, cs, ht, n, hn⟩
    exact ⟨n, c, cs, ht, hn⟩

theorem hexLiteral?_singleton {c : Char} {n : Nat} (h : hexDigit? c = some n) : hexLiteral? ['0', 'x', c] = some n := by
  simp [hexLiteral?, hexDigits?, h]

/-- A further digit of a literal counts 16 times less. -/
theorem hexLiteral?_append {t : Text} {c : Char} {n k : Nat} (ht : hexLiteral? t = some n) (hc : hexDigit? c = some k) :
    hexLiteral? (t ++ [c]) = some (16 * n + k) := by
  obtain ⟨d, ds, rfl, hd⟩ := hexLiteral?_eq_some.mp ht
  exact hexDigits?_append hc hd

/-- A literal is decoded through its value alone (R98). -/
theorem decode_str_of_hexLiteral? {t : Text} {n : Nat} (h : hexLiteral? t = some n) :
    decode (.str t) = decode (.ofInt n) := by
  have hs : (Word.str t).int? = some (n : Int) := by rw [Word.int?, h]; rfl
  rw [decode_of_int? hs, decode_of_int? (Word.int?_ofInt _)]

/-! ### The statements -/

/-- Settles O2: an encoded instruction splits into its opcode and operand with either sign, and its word has a pattern
because it has four digits. -/
theorem decodeOfEncodeIsTheInstruction : Obligations.DecodeOfEncodeIsTheInstruction := by
  intro i hi
  obtain ⟨hpos, hneg⟩ := splitInt_encode hi
  have hd : decode (.ofInt (encode i)) = .ok i := decode_ofInt_eq_ok.mpr hpos
  obtain ⟨b, hb, hlt, hword, -⟩ := exists_bcd17 (natAbs_encode_le hi)
  exact ⟨hd, decode_ofInt_eq_ok.mpr hneg, b, hb, decodeTableWord_of_bcd17Word? hlt hword hd⟩

/-- Settles O3: an integer decodes by its split, whose operand is below 100, which the encoding puts together again and
which ignores the sign. -/
theorem encodeOfDecodeIsTheWordWithoutSign : Obligations.EncodeOfDecodeIsTheWordWithoutSign := by
  intro z i h
  have hs := decode_ofInt_eq_ok.mp h
  exact ⟨decide_eq_true (operand_lt_of_decode h), encode_of_splitInt hs,
    decode_ofInt_eq_ok.mpr ((splitInt_neg z).trans hs)⟩

/-- Settles O4, from the four digits of the magnitude. -/
theorem bcdViewHoldsTheWord : Obligations.BcdViewHoldsTheWord := fun _ => exists_bcd17

/-- Settles O5: the laws of hexadecimal digits and of literals. -/
theorem hexLiteralDecodesAsItsInteger : Obligations.HexLiteralDecodesAsItsInteger :=
  ⟨fun _ _ => decode_str_of_hexLiteral?, fun _ _ => hexDigit?_eq_some, fun _ => exists_hexLiteral?_iff,
    fun _ _ => hexLiteral?_singleton, fun _ _ _ _ => hexLiteral?_append⟩

/-- Settles O1: the ten words are closed terms that the decoder evaluates. -/
theorem sampleWordsDecode : Obligations.SampleWordsDecode := by
  unfold Obligations.SampleWordsDecode
  decide

end Sys2Proof
end

section
/-! SUPPORT. The words a STEP fetches and no instruction of the variant is (30_encoding.md R95, R96, R98). -/

namespace Sys2Proof.Machine

variable {s : State}

/-- The rows that are not in the BASIC table raise `E_OPCODE` there and change nothing (R95, R96). -/
theorem exec_of_not_inTable {i : Instr} (hv : s.variant = .basic) (hi : i.inTable .basic = false) :
    exec i s = .next (s.raise .eOpcode) := by
  cases i with
  | readString | writeString | writeNewline | modulo | power | loadFloat | storeFloat | addFloat | subtractFloat
  | divideFloat | multiplyFloat => exact extendedOnly_basic hv _
  | read | write | load | store | add | subtract | divide | multiply | branch | branchneg | branchzero | halt => cases hi

/-- The same, told by the opcode. -/
theorem exec_of_opcode_not_mem {i : Instr} (hv : s.variant = .basic) (hi : i.opcode ∉ Variant.basic.opcodes) :
    exec i s = .next (s.raise .eOpcode) :=
  exec_of_not_inTable hv (Bool.eq_false_iff.mpr fun h => hi ((Instr.inTable_iff _ i).mp h))

/-- A STEP in control state Ready decodes and dispatches the word at the counter (40_cycle.md R130 to R133). -/
theorem Stepping.step_eq_executeWord (hs : Stepping s) (hic : s.ic < s.variant.words) :
    step s = executeWord s.fetched s := by
  obtain ⟨hq, hh, hp⟩ := stepping_iff.mp hs
  rw [step_nil hq, stepCommand_ready hh hp, fetchAndExecute_inside hic]

/-- A word whose opcode the variant lacks raises `E_OPCODE` with OPC and OPD latched: the opcode has no row at all, or a
row of EXTENDED that raises it in BASIC. -/
theorem executeWord_illegalOpcode {w : Word} {z : Int} (hz : w.int? = some z)
    (hn : z.natAbs / 100 ∉ s.variant.opcodes) :
    executeWord w s = .next ((s.latch w (z.natAbs / 100) (z.natAbs % 100)).raise .eOpcode) := by
  by_cases hm : z.natAbs / 100 ∈ Variant.extended.opcodes
  · obtain hv | hv := s.variant.basic_or_extended
    · obtain ⟨i, hi⟩ : ∃ i, instrOf (z.natAbs / 100) (z.natAbs % 100) = some i :=
        Option.ne_none_iff_exists'.mp fun h => instrOf_eq_none.mp h hm
      obtain ⟨hopc, hopd⟩ := instrOf_eq_some hi
      have hd : decode w = .ok i := decode_eq_ok.mpr ⟨z, hz, Prod.ext hopc.symm hopd.symm⟩
      rw [executeWord_ok hd, hopc, hopd]
      exact exec_of_opcode_not_mem hv (by rwa [hopc, ← hv])
    · exact absurd hm (hv ▸ hn)
  · exact executeWord_noRow hz hm

end Sys2Proof.Machine

namespace Sys2Proof

open Machine

/-- Settles O34: the instructions outside the BASIC list are the guarded rows. -/
theorem extendedInstructionsAreIllegalInBasic : Obligations.ExtendedInstructionsAreIllegalInBasic :=
  fun _ _ => exec_of_opcode_not_mem

/-- Settles O9: the STEP dispatches the fetched word, whose opcode the variant lacks; the lists begin at 10. -/
theorem illegalOpcodeRaisesEOpcode : Obligations.IllegalOpcodeRaisesEOpcode :=
  ⟨fun _ _ hs hic hz hn => (hs.step_eq_executeWord hic).trans (executeWord_illegalOpcode hz hn),
    fun v => by cases v <;> decide⟩

/-- Settles O10: the STEP dispatches the fetched word, and latches OPC and OPD as they are. -/
theorem wordWithoutIntegerValueRaisesEOpcode : Obligations.WordWithoutIntegerValueRaisesEOpcode :=
  fun _ hs hic hw => (hs.step_eq_executeWord hic).trans (executeWord_noValue hw)

end Sys2Proof
end

section
/-! SUPPORT. What a failed LOAD reports (70_reset_and_hazards.md R332 to R336). -/

namespace Sys2Proof.Machine

variable {s : State} {v : Variant} {a : Int} {cs : List Command}

/-- `L_ADDR` (R333), whatever the value is. -/
theorem entryError?_outside (h : a < 0 ∨ v.words ≤ a) (x : ImageValue) : entryError? v (a, x) = some .lAddr := if_pos h

/-- `L_WORD` (R334). -/
theorem entryError?_word {z : Int} (h0 : 0 ≤ a) (h : a < v.words) (hv : v = .basic) (hz : z < -9999 ∨ 9999 < z) :
    entryError? v (a, .dec z) = some .lWord := by
  have hr : ¬inBasicRange z = true := by rw [inBasicRange_iff]; omega
  have ha : ¬(a < 0 ∨ v.words ≤ a) := by omega
  subst hv
  simp [entryError?, ha, hr]

/-- `L_PARSE` of a value that no text of the variant yields (log entry 14). -/
theorem entryError?_hex {t : Text} (h0 : 0 ≤ a) (h : a < v.words) (ht : v = .basic ∨ hexLiteral? t = none) :
    entryError? v (a, .hex t) = some .lParse := by
  have ha : ¬(a < 0 ∨ v.words ≤ a) := by omega
  cases v with
  | basic => simp [entryError?, ha]
  | extended => simp [entryError?, ha, ht.resolve_left (by decide)]

/-- A LOAD whose first failing entry stands after loadable ones leaves the reset state and reports it (R332, R336). -/
theorem step_load_failed {good rest : Image} {bad : Int × ImageValue} {l : ErrorLabel}
    (hc : s.commands = .load (good ++ bad :: rest) :: cs) (hg : ∀ e ∈ good, LoadableEntry s.variant e)
    (hb : entryError? s.variant bad = some l) :
    step s = .next { State.resetOf s.variant with commands := cs, reply := .loadFailed l good.length } := by
  have he : firstError? s.variant 0 (good ++ bad :: rest) = some (l, good.length) := by
    rw [firstError?_append hb rest fun e h => loadableEntry_iff.mp (hg e h), Nat.zero_add]
  rw [step_cons hc, runCommand, loadImage]
  simp only [he]
  rfl

/-- A LOAD of a text that fails to parse leaves the reset state and reports the line (R332). -/
theorem step_loadText_failed {t : Text} {line : Nat} (hc : s.commands = .loadText t :: cs)
    (ht : parseText s.variant t = .error line) :
    step s = .next { State.resetOf s.variant with commands := cs, reply := .loadFailed .lParse line } := by
  rw [step_cons hc, runCommand, loadText]
  simp only [ht]
  rfl

end Sys2Proof.Machine

namespace Sys2Proof

open Machine

/-- Settles O58: each clause is one way an entry fails, reported by the LOAD with its position. -/
theorem failedLoadLeavesTheResetState : Obligations.FailedLoadLeavesTheResetState := by
  refine ⟨fun s good rest a v cs hc hg => ⟨fun ha => ?_, fun z h0 h hv hx hz => ?_, fun t h0 h hx ht => ?_⟩,
    fun s t line cs => step_loadText_failed⟩
  · exact step_load_failed hc hg (entryError?_outside ha v)
  · subst hx
    exact step_load_failed hc hg (entryError?_word h0 h hv hz)
  · subst hx
    exact step_load_failed hc hg (entryError?_hex h0 h ht)

end Sys2Proof
end

section
/-! SUPPORT. The reading of a text of one printed integer a line (30_encoding.md R102, R103, R107, R109). -/

namespace Sys2Proof.Machine

/-! ### The characters of a printed integer -/

theorem isDecimal_of_mem_run {t : Text} {c : Char} (ht : isDecimalRun t = true) (hc : c ∈ t) : isDecimal c = true :=
  List.all_eq_true.mp (Bool.and_eq_true_iff.mp ht).2 c hc

/-- A printed integer is made of a sign and decimal digits (41_io.md R169). -/
theorem mem_fmtInt {z : Int} {c : Char} (h : c ∈ fmtInt z) : c = '-' ∨ c = '+' ∨ isDecimal c = true := by
  rw [fmtInt, List.mem_cons] at h
  obtain h | h := h
  · split_ifs at h
    · exact .inl h
    · exact .inr (.inl h)
  · split_ifs at h
    · exact .inr (.inr (isDecimal_of_mem_run (isDecimalRun_fourDigits _) h))
    · exact .inr (.inr (isDecimal_of_mem_run (isDecimalRun_decimalDigits _) h))

/-- A character that is neither a sign nor a digit stands in no printed integer. -/
theorem not_mem_fmtInt {c : Char} (hc : c ≠ '-' ∧ c ≠ '+' ∧ ¬isDecimal c = true) (z : Int) : c ∉ fmtInt z :=
  fun h => (mem_fmtInt h).elim hc.1 fun h => h.elim hc.2.1 hc.2.2

/-! ### The stages of reading -/

theorem dropLineEndCR_of_not_mem : ∀ {t : Text}, '\r' ∉ t → dropLineEndCR t = t
  | [], _ => rfl
  | c :: cs, h => by
    obtain ⟨hc, hcs⟩ := List.ne_and_not_mem_of_not_mem_cons h
    simp [dropLineEndCR, Ne.symm hc, dropLineEndCR_of_not_mem hcs]

theorem stripComment_of_not_mem : ∀ {t : Text}, '/' ∉ t → stripComment t = t
  | [], _ => rfl
  | c :: cs, h => by
    obtain ⟨hc, hcs⟩ := List.ne_and_not_mem_of_not_mem_cons h
    simp [stripComment, Ne.symm hc, stripComment_of_not_mem hcs]

theorem dropWhile_blank_of_all {t : Text} (h : ∀ c ∈ t, isBlankChar c = false) : t.dropWhile isBlankChar = t := by
  rw [List.dropWhile_eq_self_iff]
  intro hl
  simp [h _ (List.getElem_mem hl)]

theorem trim_of_not_blank {t : Text} (h : ∀ c ∈ t, isBlankChar c = false) : trim t = t := by
  rw [trim, dropWhile_blank_of_all h, dropWhile_blank_of_all fun c hc => h c (List.mem_reverse.mp hc),
    List.reverse_reverse]

/-- The first line of a text ends at its first line feed (decision D40). -/
theorem splitLines_append : ∀ {l : Text}, '\n' ∉ l → ∀ rest : Text, splitLines (l ++ '\n' :: rest) = l :: splitLines rest
  | [], _, _ => by simp [splitLines]
  | c :: cs, h, rest => by
    obtain ⟨hc, hcs⟩ := List.ne_and_not_mem_of_not_mem_cons h
    simp [splitLines, Ne.symm hc, splitLines_append hcs rest]

/-! ### A text of printed integers -/

theorem trim_stripComment_fmtInt (z : Int) : trim (stripComment (fmtInt z)) = fmtInt z := by
  rw [stripComment_of_not_mem (not_mem_fmtInt (by decide) z)]
  refine trim_of_not_blank fun c hc => Bool.eq_false_iff.mpr fun hb => ?_
  have hblank : c = ' ' ∨ c = '\t' := by simpa [isBlankChar] using hb
  rcases hblank with rfl | rfl <;> exact not_mem_fmtInt (by decide) z hc

/-- A printed integer is a sequential line of BASIC (R103). -/
theorem readLine_fmtInt (z : Int) : readLine .basic (fmtInt z) = .sequential z := by
  have hne : (fmtInt z).isEmpty = false := rfl
  simp [readLine, trim_stripComment_fmtInt, hne, decimal?_fmtInt, acceptsBare, acceptsSequential]

/-- The text with one integer a line. -/
def linesText (zs : List Int) : Text := zs.flatMap fun z => fmtInt z ++ ['\n']

/-- Every line of it is one printed integer, and nothing stands after the last line feed. -/
theorem splitLines_linesText : ∀ zs : List Int, splitLines (linesText zs) = zs.map fmtInt ++ [[]]
  | [] => rfl
  | z :: zs => by
    have hz : '\n' ∉ fmtInt z := not_mem_fmtInt (by decide) z
    have ht : linesText (z :: zs) = fmtInt z ++ '\n' :: linesText zs := by simp [linesText]
    rw [ht, splitLines_append hz, splitLines_linesText zs, List.map_cons, List.cons_append]

theorem dropLineEndCR_linesText (zs : List Int) : dropLineEndCR (linesText zs) = linesText zs := by
  refine dropLineEndCR_of_not_mem fun h => ?_
  obtain ⟨z, -, hz⟩ := List.mem_flatMap.mp h
  rcases List.mem_append.mp hz with hz | hz
  · exact not_mem_fmtInt (by decide) z hz
  · simp at hz

/-- Lines of printed integers are the image of the integers from the next sequential address on (R103). -/
theorem parseLines_fmtInt : ∀ (zs : List Int) (at_ line : Nat), sentinel ∉ zs →
    parseLines .basic at_ line (zs.map fmtInt ++ [[]]) =
      .ok ((zs.zipIdx at_).map fun e => ((e.2 : Int), ImageValue.dec e.1))
  | [], _, _, _ => rfl
  | z :: zs, at_, line, h => by
    obtain ⟨hz, hzs⟩ := List.ne_and_not_mem_of_not_mem_cons h
    simp only [List.map_cons, List.cons_append, parseLines, readLine_fmtInt, if_neg (Ne.symm hz),
      parseLines_fmtInt zs (at_ + 1) (line + 1) hzs, List.zipIdx_cons]
    rfl

end Sys2Proof.Machine

namespace Sys2Proof

open Machine

/-- Settles O59: the text splits into the printed integers, and each is read as the next sequential line. -/
theorem sequentialTextIsItsImage : Obligations.SequentialTextIsItsImage := by
  intro zs h
  rw [← linesText, parseText, dropLineEndCR_linesText, splitLines_linesText]
  exact parseLines_fmtInt zs 0 0 h

end Sys2Proof
end

section
/-! SUPPORT. The frame of a STEP that fails, the counter after a STEP that runs an instruction, and the two STEPs that
fetch nothing (40_cycle.md R131, R133, R136, R138, R140). -/

namespace Sys2Proof.Machine

variable {s t : State}

/-! ### A STEP that fails -/

/-- An instruction that fails has done nothing but raise the error (R138). -/
theorem ExecNext.eq_raise {i : Instr} {e : ErrorLabel} (h : ExecNext s i t) (he : t.reply = .outcome (.failed e)) :
    t = s.raise e := by
  cases h with
  | error _ e' => cases he; rfl
  | _ => cases he

/-- A STEP that fails has latched the fetch registers and raised the error (R138). -/
theorem StepNext.eq_latch_raise {e : ErrorLabel} (h : StepNext s t) (he : t.reply = .outcome (.failed e)) :
    ∃ w opc opd, t = (s.latch w opc opd).raise e := by
  cases h with
  | noop => cases he
  | counter => cases he; exact ⟨s.ir, s.opc, s.opd, rfl⟩
  | opcode _ _ _ opc opd => cases he; exact ⟨s.fetched, opc, opd, rfl⟩
  | exec _ _ _ i _ _ _ hx => exact ⟨s.fetched, i.opcode, i.operand, hx.eq_raise he⟩

/-- The next state of a STEP in control state Ready is one of the next states of the STEP command. -/
theorem Stepping.stepNext (hs : Stepping s) (h : step s = .next t) : StepNext s t :=
  stepCommand_next (step_nil hs.queue ▸ h)

/-- The fetch registers and the reply are not what makes a state step: it stays so when only they are written. -/
theorem Stepping.latch_raise (hs : Stepping s) (w : Word) (opc opd : Nat) (e : ErrorLabel) :
    Stepping ((s.latch w opc opd).raise e) := ⟨hs.queue, hs.ready⟩

/-- A counter outside memory raises `E_COUNTER` with RUN set (R133). -/
theorem Stepping.step_outside (hs : Stepping s) (hic : s.variant.words ≤ s.ic) :
    step s = .next ({ s with run := true }.raise .eCounter) := by
  obtain ⟨hq, hh, hp⟩ := stepping_iff.mp hs
  rw [step_nil hq, stepCommand_ready hh hp, fetchAndExecute_outside hic]

/-- A word has no integer value, has one whose opcode has no row, or decodes (30_encoding.md R96, R98). -/
theorem noValue_or_noRow_or_decodes (w : Word) :
    w.int? = none ∨ (∃ z, w.int? = some z ∧ z.natAbs / 100 ∉ Variant.extended.opcodes) ∨ ∃ i, decode w = .ok i := by
  cases hz : w.int? with
  | none => exact .inl rfl
  | some z =>
    cases hi : instrOf (splitInt z).1 (splitInt z).2 with
    | none => exact .inr (.inl ⟨z, rfl, instrOf_eq_none.mp hi⟩)
    | some i => exact .inr (.inr ⟨i, by rw [decode_of_int? hz, hi]⟩)

/-- A word that failed fails again and writes nothing new: it latches what is latched already, and it does not read the
reply (R140). -/
theorem executeWord_of_failed {w : Word} {e : ErrorLabel} (h : executeWord w s = .next t)
    (he : t.reply = .outcome (.failed e)) : executeWord w t = .next t := by
  rcases noValue_or_noRow_or_decodes w with hw | ⟨z, hz, hn⟩ | ⟨i, hi⟩
  · rw [executeWord_noValue hw] at h ⊢
    cases h; rfl
  · rw [executeWord_noRow hz hn] at h ⊢
    cases h; rfl
  · rw [executeWord_ok hi] at h ⊢
    obtain rfl := (exec_next h).eq_raise he
    exact (exec_reply i (s.latch w i.opcode i.operand) _).trans h

/-- A STEP that failed leads to itself (R140). -/
theorem Stepping.step_of_failed {e : ErrorLabel} (hs : Stepping s) (h : step s = .next t)
    (he : t.reply = .outcome (.failed e)) : step t = .next t := by
  obtain ⟨w, opc, opd, rfl⟩ := (hs.stepNext h).eq_latch_raise he
  have hs' := hs.latch_raise w opc opd e
  rcases Nat.lt_or_ge s.ic s.variant.words with hic | hic
  · rw [hs.step_eq_executeWord hic] at h
    exact (hs'.step_eq_executeWord hic).trans (executeWord_of_failed h he)
  · rw [hs.step_outside hic] at h
    rw [hs'.step_outside hic]
    cases h; rfl

/-! ### The counter after an instruction (R136) -/

/-- A suspended instruction leaves IC on it. -/
theorem ExecNext.ic_of_waiting {i : Instr} {k : InputKind} (h : ExecNext s i t)
    (hk : t.reply = .outcome (.waiting k)) : t.ic = s.ic := by
  cases h with
  | read | readString => rfl
  | _ => cases hk

/-- An instruction that jumps sets IC to its operand, in memory or not. -/
theorem ic_of_jumps {i : Instr} (h : exec i s = .next t) (hj : i.jumps s.acc = true) : t.ic = i.operand := by
  rw [exec_of_jumps hj] at h
  cases h; rfl

/-- A HALT leaves IC on it (44_control.md R263). -/
theorem ic_of_halt {a : Nat} (h : exec (.halt a) s = .next t) : t.ic = s.ic := by
  cases h; rfl

/-- An instruction that succeeds, jumps nowhere and is no HALT falls through. -/
theorem ExecNext.ic_of_ok {i : Instr} {o : Option Text} (h : ExecNext s i t) (ho : t.reply = .outcome (.ok o))
    (hj : i.jumps s.acc = false) (hh : ∀ a, i ≠ .halt a) : t.ic = s.ic + 1 := by
  cases h with
  | error | read | readString => cases ho
  | jump _ hj' => simp [hj] at hj'
  | halt a => exact absurd rfl (hh a)
  | entry | acc | accFloat | store | storeFloat | stay => rfl

end Sys2Proof.Machine

namespace Sys2Proof

open Machine

/-- Settles O11: a STEP that fails has latched the fetch registers and raised the error. -/
theorem failedStepChangesOnlyFetchRegisters : Obligations.FailedStepChangesOnlyFetchRegisters := by
  intro s t e hs h he
  obtain ⟨w, opc, opd, rfl⟩ := (hs.stepNext h).eq_latch_raise he
  rfl

/-- Settles O12: the failed STEP has left the control state and IC alone and leads to itself, so every run from it
stays. -/
theorem failedStepFailsForEver : Obligations.FailedStepFailsForEver := by
  intro s t e hs h he
  have hfix : Sys2Proof.core.step t = .next t := hs.step_of_failed h he
  obtain ⟨w, opc, opd, rfl⟩ := (hs.stepNext h).eq_latch_raise he
  exact ⟨hs.ready, rfl, run_of_fixed hfix⟩

/-- Settles O14: the decoded instruction runs on a state with the same IC and ACC, and each clause is one way it ends. -/
theorem counterUpdateAfterStep : Obligations.CounterUpdateAfterStep := by
  intro s t i hs hic hi h
  rw [hs.step_eq_exec hic hi] at h
  have hx := exec_next h
  refine ⟨fun e he => ?_, fun k => hx.ic_of_waiting, fun a ha => ?_, fun hj => ic_of_jumps h hj, fun o => hx.ic_of_ok⟩
  · rw [hx.eq_raise he]; rfl
  · subst ha; exact (ic_of_halt h :)

/-- Settles O6: the latched state is the old one with RUN, IR, OPC and OPD written. -/
theorem stepRunsTheDecodedInstruction : Obligations.StepRunsTheDecodedInstruction :=
  fun _ _ hs hic hi => hs.step_eq_exec hic hi

/-- Settles O7: an empty queue makes the step a STEP command, which is the no-op of R131. -/
theorem stepWhileHaltedOrWaitingChangesNothing : Obligations.StepWhileHaltedOrWaitingChangesNothing :=
  fun _ hq h => (step_nil hq).trans (stepCommand_noop h)

/-- Settles O8: the fetch raises the error before it reads a word. -/
theorem counterOutsideMemoryRaisesECounter : Obligations.CounterOutsideMemoryRaisesECounter :=
  fun _ hs hic => hs.step_outside hic

end Sys2Proof
end

section
/-! SUPPORT. The texts of numbers, and the packed form of strings by position (41_io.md R167 to R170). -/

namespace Sys2Proof.Machine

/-! ### Numbers -/

/-- An integer of at most four digits prints as its sign and four digits (R169). -/
theorem fmtInt_of_le {z : Int} (h : z.natAbs ≤ 9999) :
    fmtInt z = (if z < 0 then '-' else '+') :: fourDigits z.natAbs :=
  congrArg _ (if_pos h)

/-- A longer integer prints as its sign and all its digits (R170). -/
theorem fmtInt_of_lt {z : Int} (h : 9999 < z.natAbs) :
    fmtInt z = (if z < 0 then '-' else '+') :: Nat.toDigits 10 z.natAbs :=
  congrArg _ (if_neg (Nat.not_le.mpr h))

/-- The four digits are the residues of the number; a number below 10000 has no digit above the thousands. -/
theorem fourDigits_eq {n : Nat} (h : n ≤ 9999) :
    fourDigits n = [digitChar (n / 1000), digitChar (n / 100 % 10), digitChar (n / 10 % 10), digitChar (n % 10)] := by
  have h3 : n / 1000 % 10 = n / 1000 := Nat.mod_eq_of_lt (by omega)
  simp [fourDigits, digit, h3]

/-- A non-integral rational in float mode prints its hundredths (R170). -/
theorem fmt_rat_float {q : Rat} (hq : q.den ≠ 1) :
    (XNum.rat q).fmt true = fmtLead q ++ twoPlaces (hundredths q) := by
  simp [XNum.fmt, XNum.int?, hq]

theorem twoPlaces_eq (n : Nat) :
    twoPlaces n = Nat.toDigits 10 (n / 100) ++ ['.', digitChar (n / 10 % 10), digitChar (n % 10)] := by
  simp [twoPlaces, decimalDigits, digit]

/-- Spaces, a sign and zeros are all that stands before the digits (log entry 11). -/
theorem mem_fmtLead {q : Rat} {c : Char} (h : c ∈ fmtLead q) : c ∈ [' ', '-', '+', '0'] := by
  rw [fmtLead, List.mem_append, List.mem_append] at h
  rcases h with (h | h) | h
  · simp [List.eq_of_mem_replicate h]
  · cases hs : Config.fmtSign q with
    | none => simp [hs] at h
    | some neg =>
      have hc : c = if neg then '-' else '+' := by simpa [hs] using h
      cases neg <;> simp [hc]
  · simp [List.eq_of_mem_replicate h]

/-! ### Packed strings -/

theorem pack?_of_not_ascii {t : Text} (h : isAscii t = false) : pack? t = none := if_neg (by simp [h])

/-- Word `j` of a packed string holds the codes of characters `2j` and `2j + 1`, or 0 past the end (R167). -/
theorem getElem?_packPairs_text {t : Text} {j : Nat} (hj : j < (packPairs (t.map Char.toNat)).length) :
    (packPairs (t.map Char.toNat))[j]? =
      some ((t[2 * j]?.getD 'A').toNat * 100 + (t[2 * j + 1]?.map Char.toNat).getD 0) := by
  have hhi : (t[2 * j]?.map Char.toNat).getD 65 = (t[2 * j]?.getD 'A').toNat := by cases t[2 * j]? <;> rfl
  rw [getElem?_packPairs _ _ hj, List.getElem?_map, List.getElem?_map, hhi]

/-- Unpacking the words of a packed string gives it back when every code in an odd position is below 100 (R168). -/
theorem unpack?_packPairs {t : Text} (ha : isAscii t = true)
    (ho : ∀ (j : Nat) (c : Char), t[2 * j + 1]? = some c → c.toNat < 100) :
    unpack? t.length (packPairs (t.map Char.toNat)) = some t := by
  have hodd : ∀ j k, (t.map Char.toNat)[2 * j + 1]? = some k → k < 100 := by
    intro j k hk
    obtain ⟨c, hc, rfl⟩ := Option.map_eq_some_iff.mp (List.getElem?_map ▸ hk)
    exact ho j c hc
  have hcodes := unpackCodes_packPairs _ hodd
  rw [List.length_map] at hcodes
  have hall : (t.map Char.toNat).all (· ≤ 127) = true := by simpa [isAscii, Function.comp_def] using ha
  simp [unpack?, hcodes, hall, Char.ofNat_toNat, Function.comp_def]

/-- Unpacking body words that are given by position (R168). -/
theorem unpack?_map_range (len : Nat) (ws : Nat → Nat) :
    unpack? len ((List.range (bodyLength len)).map ws) =
      if ∀ i, i < len → packedCode ws i ≤ 127 then some (packedText len ws) else none := by
  have hws : ∀ j, j < bodyLength len → ((List.range (bodyLength len)).map ws)[j]?.getD 0 = ws j := by
    intro j hj
    simp [List.getElem?_range hj]
  have hcode : (∀ i, i < len → packedCode (fun j => ((List.range (bodyLength len)).map ws)[j]?.getD 0) i ≤ 127) ↔
      ∀ i, i < len → packedCode ws i ≤ 127 :=
    forall₂_congr fun i hi => by rw [packedCode_congr hws hi]
  rw [unpack?_eq (by simp), packedText_congr hws]
  exact if_congr hcode rfl rfl

end Sys2Proof.Machine

namespace Sys2Proof

open Machine

/-- Settles O49: a BASIC word has no more than four digits, and every printed integer reads back. -/
theorem basicNumbersAreSignAndFourDigits : Obligations.BasicNumbersAreSignAndFourDigits := by
  intro z fm h
  rw [fmt_ofInt]
  exact ⟨by rw [fmtInt_of_le h, fourDigits_eq h], decimal?_fmtInt z⟩

/-- Settles O50: the lead and the hundredths are those of the format. -/
theorem extendedNumbersPrintAsR170 : Obligations.ExtendedNumbersPrintAsR170 := by
  refine ⟨fun z fm h => ?_, fun z fm => ?_, fun q hq => ?_⟩
  · rw [fmt_ofInt, fmtInt_of_lt h]
  · rw [fmt_ofInt, decimal?_fmtInt]
  · refine ⟨fmtLead q, hundredths q, hundredths_eq q, fun c => mem_fmtLead, ?_⟩
    rw [fmt_rat_float hq, twoPlaces_eq, List.append_assoc]

/-- Settles O51: the pairs of the packed form, by their number and their position. -/
theorem packedStringHasHeaderAndPairs : Obligations.PackedStringHasHeaderAndPairs := by
  refine ⟨fun t ht => ⟨_, pack?_of_ascii ht, ?_, fun j => getElem?_packPairs_text⟩, fun t => pack?_of_not_ascii⟩
  rw [packPairs_length, List.length_map, bodyLength]

/-- Settles O52: unpacking tests the first codes and takes their text; packing keeps the codes apart. -/
theorem unpackOfPackIsTheString : Obligations.UnpackOfPackIsTheString := by
  refine ⟨fun len ns hl => ⟨fun h => ?_, fun ⟨i, hi, h⟩ => ?_⟩, fun t ha ho => ?_⟩
  · rw [unpack?_eq hl, if_pos h]
  · rw [unpack?_eq hl, if_neg fun hall => Nat.not_le.mpr h (hall i hi)]
  · exact ⟨_, pack?_of_ascii ha, unpack?_packPairs ha ho⟩

end Sys2Proof
end

section
/-! SUPPORT. The input and output instructions, one equation per case (41_io.md R160 to R164, R168). -/

namespace Sys2Proof.Machine

variable {s : State} {a len : Nat}

/-- READ inside memory suspends for a number (R160). -/
theorem exec_read_of_lt (ha : a < s.variant.words) : exec (.read a) s = .next (s.suspend .number a) :=
  withAddress_of_lt ha _

/-- An instruction that reads its number operand with `withNumber` has the form of 43_arithmetic.md R221. -/
theorem readsNumber_of_withNumber {i : Nat → Instr} {k : XNum → Result} (h : exec (i a) s = withNumber a s k) :
    ReadsNumber i s a k where
  number _ ha hx := h.trans (withNumber_num ha hx k)
  string _ ha ht := h.trans (withNumber_str ha ht k)
  outside ha := h.trans (withNumber_of_le ha k)

/-! ### The packed string at an address -/

/-- A body past the last address raises `E_OPERAND` (R163, decision D25). -/
theorem writePacked_outside (h : s.variant.words - 1 < a + bodyLength len) :
    writePacked a len s = .next (s.raise .eOperand) := if_pos h

/-- A body word that is no non-negative integer number is refused (R163). -/
theorem writePacked_malformedBody (h : a + bodyLength len ≤ s.variant.words - 1) {j : Nat} (hj : j < bodyLength len)
    (hw : NoBodyWord (Memory.read s.memory (a + 1 + j))) : writePacked a len s = .refused .malformedBody := by
  have hmem : Memory.read s.memory (a + 1 + j) ∈ Memory.readAll s.memory (a + 1) (bodyLength len) := by
    rw [Memory.readAll_eq]
    exact List.mem_map_of_mem (List.mem_range.mpr hj)
  rw [writePacked, if_neg (Nat.not_lt.mpr h), bodyWords?_of_mem hmem (bodyWord?_of_noBodyWord hw)]

/-- Body words that unpack to a text are appended as that text (R163). -/
theorem writePacked_text (h : a + bodyLength len ≤ s.variant.words - 1) {ns : List Nat} {t : Text}
    (hb : bodyWords? (Memory.readAll s.memory (a + 1) (bodyLength len)) = some ns) (ht : unpack? len ns = some t) :
    writePacked a len s = .next (s.writeEntry (.outStr t)) := by
  rw [writePacked, if_neg (Nat.not_lt.mpr h), hb]
  simp only [ht]

/-- Body words with a code above 127 are refused (R168). -/
theorem writePacked_outsideAscii (h : a + bodyLength len ≤ s.variant.words - 1) {ns : List Nat}
    (hb : bodyWords? (Memory.readAll s.memory (a + 1) (bodyLength len)) = some ns) (ht : unpack? len ns = none) :
    writePacked a len s = .refused .outsideAscii := by
  rw [writePacked, if_neg (Nat.not_lt.mpr h), hb]
  simp only [ht]

/-- Body words that hold natural numbers are read as those numbers. -/
theorem bodyWords?_readAll {ws : Nat → Nat} {n : Nat}
    (h : ∀ j, j < n → Memory.read s.memory (a + j) = .ofInt (ws j)) :
    bodyWords? (Memory.readAll s.memory a n) = some ((List.range n).map ws) := by
  have hread : Memory.readAll s.memory a n = ((List.range n).map ws).map fun (k : Nat) => Word.ofInt k := by
    rw [Memory.readAll_eq, List.map_map]
    exact List.map_congr_left fun j hj => h j (List.mem_range.mp hj)
  rw [hread, bodyWords?_ofInt]

/-! ### WRITE_STRING -/

/-- WRITE_STRING of a string cell passes it through (R163). -/
theorem exec_writeString_str (hv : s.variant = .extended) (ha : a < s.variant.words) {t : Text}
    (hw : Memory.read s.memory a = .str t) : exec (.writeString a) s = .next (s.writeEntry (.outStr t)) := by
  rw [exec, execWriteString, extendedOnly_extended hv, withWord_of_lt ha, hw]

/-- WRITE_STRING of a number that is no header is refused (R163). -/
theorem exec_writeString_malformedHeader (hv : s.variant = .extended) (ha : a < s.variant.words) {x : XNum}
    (hw : Memory.read s.memory a = .num x) (hl : headerLength? x = none) :
    exec (.writeString a) s = .refused .malformedHeader := by
  rw [exec, execWriteString, extendedOnly_extended hv, withWord_of_lt ha, hw]
  simp only [hl]

/-- WRITE_STRING of a header writes the packed string behind it (R163). -/
theorem exec_writeString_packed (hv : s.variant = .extended) (ha : a < s.variant.words)
    (hw : Memory.read s.memory a = .ofInt (len * 100 : Nat)) : exec (.writeString a) s = writePacked a len s := by
  rw [exec, execWriteString, extendedOnly_extended hv, withWord_of_lt ha, hw]
  simp only [Word.ofInt, headerLength?_ofInt]

/-- An operand outside memory raises `E_OPERAND` (60_exceptions.md R283). -/
theorem exec_writeString_outside (hv : s.variant = .extended) (ha : s.variant.words ≤ a) :
    exec (.writeString a) s = .next (s.raise .eOperand) :=
  (extendedOnly_extended hv _).trans (withWord_of_le ha _)

/-- An address whose body ends inside memory is inside memory. -/
theorem lt_words_of_body {v : Variant} (h : a + bodyLength len ≤ v.words - 1) : a < v.words := by
  have := v.words_ge
  omega

end Sys2Proof.Machine

namespace Sys2Proof

open Machine

/-- Settles O29: the two sides of the operand check. -/
theorem readSuspendsForANumber : Obligations.ReadSuspendsForANumber :=
  fun _ _ => ⟨exec_read_of_lt, fun ha => withAddress_of_le ha _⟩

/-- Settles O30: in EXTENDED the instruction is the operand check and the suspension. -/
theorem readStringSuspendsForAString : Obligations.ReadStringSuspendsForAString :=
  fun _ _ hv => ⟨fun ha => (extendedOnly_extended hv _).trans (withAddress_of_lt ha _),
    fun ha => (extendedOnly_extended hv _).trans (withAddress_of_le ha _)⟩

/-- Settles O31: WRITE reads its operand as every numeric instruction does. -/
theorem writeAppendsTheNumber : Obligations.WriteAppendsTheNumber :=
  fun _ _ => readsNumber_of_withNumber rfl

/-- Settles O32: each clause is one case of the header and of the body behind it. -/
theorem writeStringAppendsTheText : Obligations.WriteStringAppendsTheText := by
  intro s a hv
  refine ⟨fun t ha => exec_writeString_str hv ha, fun len ws hh hfit hbody => ?_, fun len ha hh hend => ?_,
    fun z ha hw hz => exec_writeString_malformedHeader hv ha hw (headerLength?_of_malformed hz),
    fun x ha hw hx => exec_writeString_malformedHeader hv ha hw (headerLength?_of_nonIntegral hx),
    fun len j hh hfit hj hw => ?_, exec_writeString_outside hv⟩
  · rw [exec_writeString_packed hv (lt_words_of_body hfit) hh]
    have hb := bodyWords?_readAll hbody
    have hu := unpack?_map_range len ws
    refine ⟨fun hc => writePacked_text hfit hb (hu.trans (if_pos hc)), fun ⟨i, hi, hc⟩ => ?_⟩
    exact writePacked_outsideAscii hfit hb (hu.trans (if_neg fun hall => Nat.not_le.mpr hc (hall i hi)))
  · exact (exec_writeString_packed hv ha hh).trans (writePacked_outside hend)
  · exact (exec_writeString_packed hv (lt_words_of_body hfit) hh).trans (writePacked_malformedBody hfit hj hw)

/-- Settles O33: in EXTENDED the instruction appends the marker and falls through. -/
theorem writeNewlineAppendsTheMarker : Obligations.WriteNewlineAppendsTheMarker :=
  fun _ _ hv => extendedOnly_extended hv _

end Sys2Proof
end

section
/-! SUPPORT. PROVIDE_INPUT by the kind of the request and the value (41_io.md R165 to R168, R173). -/

namespace Sys2Proof.Machine

variable {s : State} {a : Nat} {str : Text} {cs : List Command} {p : Pending}

/-! ### The cases of PROVIDE_INPUT -/

/-- No request is outstanding (60_exceptions.md R287). -/
theorem step_input_notWaiting {v : InputValue} (hc : s.commands = .provideInput v :: cs) (hp : s.pend = none) :
    step s = .next ({ s with commands := cs }.raise .iNotWaiting) := by
  simp [step_cons hc, runCommand, provideInput, hp]

/-- A number for a number. -/
theorem step_input_number {x : XNum} (hc : s.commands = .provideInput (.number x) :: cs) (hp : s.pend = some p)
    (hk : p.kind = .number) : step s = provideNumber x p.target { s with commands := cs } := by
  simp [step_cons hc, runCommand, provideInput, hp, hk]

/-- A string for a string. -/
theorem step_input_string (hc : s.commands = .provideInput (.text str) :: cs) (hp : s.pend = some p)
    (hk : p.kind = .string) : step s = provideString str p.target { s with commands := cs } := by
  simp [step_cons hc, runCommand, provideInput, hp, hk]

/-- A string for a number. -/
theorem step_input_textForNumber (hc : s.commands = .provideInput (.text str) :: cs) (hp : s.pend = some p)
    (hk : p.kind = .number) : step s = .next ({ s with commands := cs }.raise .iBadValue) := by
  simp [step_cons hc, runCommand, provideInput, hp, hk]

/-- A number for a string. -/
theorem step_input_numberForText {x : XNum} (hc : s.commands = .provideInput (.number x) :: cs)
    (hp : s.pend = some p) (hk : p.kind = .string) :
    step s = .next ({ s with commands := cs }.raise .iBadValue) := by
  simp [step_cons hc, runCommand, provideInput, hp, hk]

/-! ### Numbers -/

theorem provideNumber_valid {x : XNum} (hx : validNumber s.variant x = true) (ha : a < s.variant.words) :
    provideNumber x a s = .next (s.setWord a (.num x)).resume := by
  rw [provideNumber, if_pos hx, if_pos ha]

theorem provideNumber_invalid {x : XNum} (hx : ¬validNumber s.variant x = true) :
    provideNumber x a s = .next (s.raise .iBadValue) := if_neg hx

/-- Every number of EXTENDED is valid, and a number of BASIC that is an integer in [-9999, 9999] (R166). -/
theorem validNumber_of_basic {v : Variant} {x : XNum}
    (h : v = .basic → ∃ z : Int, x = .ofInt z ∧ -9999 ≤ z ∧ z ≤ 9999) : validNumber v x = true := by
  cases v with
  | basic => exact validNumber_basic.mpr (h rfl)
  | extended => rfl

/-! ### Strings -/

/-- The words a provided string is stored as: its header and its pairs (R167). -/
def packedWords (str : Text) : List Word :=
  (str.length * 100 :: packPairs (str.map Char.toNat)).map fun (n : Nat) => Word.ofInt n

theorem length_packedWords (str : Text) : (packedWords str).length = 1 + (str.length + 1) / 2 := by
  simp [packedWords, packPairs_length, bodyLength, Nat.add_comm]

/-- A character outside ASCII is refused before the string is checked against the end of memory (R165, R167). -/
theorem provideString_outsideAscii (h : isAscii str = false) : provideString str a s = .refused .outsideAscii := by
  rw [provideString, pack?_of_not_ascii h]

/-- A string that runs past the last address is a bad value (decision D25). -/
theorem provideString_tooLong (h : isAscii str = true) (hend : s.variant.words - 1 < a + (str.length + 1) / 2) :
    provideString str a s = .next (s.raise .iBadValue) := by
  rw [provideString, pack?_of_ascii h]
  exact if_pos hend

/-- A string that fits is stored in its words (R165). -/
theorem provideString_fits (h : isAscii str = true) (hfit : a + (str.length + 1) / 2 ≤ s.variant.words - 1) :
    provideString str a s = .next (s.setWords a (packedWords str)).resume := by
  rw [provideString, pack?_of_ascii h]
  exact if_neg (Nat.not_lt.mpr hfit)

/-! ### The words of a stored string -/

variable {m : Memory}

theorem read_packedWords_header :
    Memory.read (Memory.writeAll a (packedWords str) m) a = .ofInt (str.length * 100 : Nat) :=
  Memory.read_writeAll (packedWords str) a 0 _ (by rw [length_packedWords]; omega)

theorem read_packedWords_pair {j : Nat} (hj : j < (str.length + 1) / 2) :
    Memory.read (Memory.writeAll a (packedWords str) m) (a + 1 + j) =
      .ofInt ((str[2 * j]?.getD 'A').toNat * 100 + (str[2 * j + 1]?.map Char.toNat).getD 0 : Nat) := by
  have hlen : j < (packPairs (str.map Char.toNat)).length := by rwa [packPairs_length, List.length_map]
  have hpair := (List.getElem?_eq_some_iff.mp (getElem?_packPairs_text hlen)).2
  rw [show a + 1 + j = a + (j + 1) by omega,
    Memory.read_writeAll (packedWords str) a (j + 1) m (by rw [length_packedWords]; omega)]
  simp [packedWords, hpair]

theorem read_packedWords_other {b : Nat} (hb : b < a ∨ a + (str.length + 1) / 2 < b) :
    Memory.read (Memory.writeAll a (packedWords str) m) b = Memory.read m b :=
  Memory.read_writeAll_other _ _ _ _ (by rw [length_packedWords]; omega)

/-- The body words of a stored string are the pairs of its codes. -/
theorem bodyWords?_packedWords :
    bodyWords? (Memory.readAll (Memory.writeAll a (packedWords str) m) (a + 1) (bodyLength str.length)) =
      some (packPairs (str.map Char.toNat)) := by
  have hread := Memory.readAll_writeAll ((packPairs (str.map Char.toNat)).map fun (n : Nat) => Word.ofInt n) (a + 1)
    (Memory.write a (.ofInt (str.length * 100 : Nat)) m)
  rw [List.length_map, packPairs_length, List.length_map] at hread
  exact (congrArg bodyWords? hread).trans (bodyWords?_ofInt _)

/-- WRITE_STRING of an address where a string is stored appends the string, when its codes come apart (R163, R168). -/
theorem exec_writeString_packedWords (hv : s.variant = .extended)
    (hm : s.memory = Memory.writeAll a (packedWords str) m) (ha : isAscii str = true)
    (ho : ∀ (j : Nat) (c : Char), str[2 * j + 1]? = some c → c.toNat < 100)
    (hfit : a + (str.length + 1) / 2 ≤ s.variant.words - 1) :
    exec (.writeString a) s = .next (s.writeEntry (.outStr str)) := by
  have hheader : Memory.read s.memory a = .ofInt (str.length * 100 : Nat) := hm ▸ read_packedWords_header
  rw [exec_writeString_packed hv (lt_words_of_body hfit) hheader]
  exact writePacked_text hfit (hm ▸ bodyWords?_packedWords) (unpack?_packPairs ha ho)

end Sys2Proof.Machine

namespace Sys2Proof

open Machine

/-- Settles O53: the READ suspends, and the input is stored where the request points. -/
theorem twoPhaseInput : Obligations.TwoPhaseInput := by
  refine ⟨fun s a x hs hic hi hx => ?_, fun s a str cs hc hp hascii hfit => ?_⟩
  · have ha : a < s.variant.words := operand_lt_words s.variant hi
    refine ⟨(s.latch s.fetched 10 a).suspend .number a, _, (hs.step_eq_exec hic hi).trans (exec_read_of_lt ha),
      rfl, rfl, rfl, (step_input_number (p := ⟨.number, a⟩) (cs := []) rfl rfl rfl).trans
        (provideNumber_valid (validNumber_of_basic hx) ha), rfl,
      Memory.read_write_same .., fun b hb => Memory.read_write_other hb _ _, ?_⟩
    rw [← hs.queue]
    rfl
  · exact ⟨_, (step_input_string hc hp rfl).trans (provideString_fits (isAscii_iff.mpr hascii) hfit),
      read_packedWords_header, fun _ => read_packedWords_pair, fun _ => read_packedWords_other, rfl⟩

/-- Settles O54: each clause is one case of the request and the value. -/
theorem inputErrorsChangeNothing : Obligations.InputErrorsChangeNothing := by
  intro s cs v hc
  refine ⟨step_input_notWaiting hc, fun p x hp hk hv hvar hx => ?_, fun p t hp hk hv => ?_, fun p x hp hk hv => ?_,
    fun p t hp hk hv ht hend => ?_, fun p t hp hk hv ht => ?_⟩ <;> subst hv
  · have hinvalid : ¬validNumber s.variant x = true := by rwa [hvar, validNumber_basic]
    exact (step_input_number hc hp hk).trans (provideNumber_invalid hinvalid)
  · exact step_input_textForNumber hc hp hk
  · exact step_input_numberForText hc hp hk
  · exact (step_input_string hc hp hk).trans (provideString_tooLong ht hend)
  · exact (step_input_string hc hp hk).trans (provideString_outsideAscii ht)

/-- Settles O55: WRITE_STRING finds the header and the pairs that PROVIDE_INPUT stored, and unpacks them. -/
theorem providedStringIsEchoed : Obligations.ProvidedStringIsEchoed := by
  intro s a str cs hv hc hp ha ho hend
  have hfit : a + (str.length + 1) / 2 ≤ s.variant.words - 1 := by omega
  exact ⟨_, (step_input_string hc hp rfl).trans (provideString_fits ha hfit), rfl, rfl, rfl,
    fun _ => read_packedWords_other, exec_writeString_packedWords hv rfl ha ho hfit⟩

end Sys2Proof
end

section
/-! SUPPORT. Where a STEP is refused (41_io.md R163, R168, 43_arithmetic.md R233). -/

namespace Sys2Proof.Machine

variable {s : State}

/-- A string in memory is a word of EXTENDED only (10_state.md R22, R23). -/
theorem Inv.extended_of_str (hi : Inv s) {a : Nat} {t : Text} (h : Memory.read s.memory a = .str t) :
    s.variant = .extended := by
  have hw := hi.word a
  rw [h, wordOk, Bool.and_eq_true, decide_eq_true_eq] at hw
  exact hw.1

/-- A refused STEP in control state Ready is refused by the instruction it decodes. -/
theorem Stepping.execRefused (hs : Stepping s) {r : Refusal} (h : step s = .refused r) :
    s.ic < s.variant.words ∧ ∃ i, decode s.fetched = .ok i ∧
      ExecRefused (s.latch s.fetched i.opcode i.operand) i r := by
  rw [step_nil hs.queue] at h
  obtain ⟨-, -, hic, i, hi, he⟩ := stepCommand_stops (s := s) (by simp [h])
  exact ⟨hic, i, hi, exec_refused (he.symm.trans h)⟩

end Sys2Proof.Machine

namespace Sys2Proof

open Machine

/-- Settles O21: the refusing instruction meets a string, which only EXTENDED has, or is a WRITE_STRING of EXTENDED. -/
theorem refusedStepReadsAStringOrWritesOne : Obligations.RefusedStepReadsAStringOrWritesOne := by
  intro s r hinv hs h
  obtain ⟨hic, i, hi, ⟨hr, hnum, t, ht⟩ | ⟨a, ha, hv, hr, x, hx⟩⟩ := hs.execRefused h
  · exact ⟨i, hi, hinv.extended_of_str ht, hic, .inl ⟨hr, hnum, t, ht⟩⟩
  · exact ⟨i, hi, hv, hic, .inr ⟨a, ha, hr, x, hx⟩⟩

end Sys2Proof
end

section
/-! SUPPORT. The load and store instructions, and what a written word reads as (42_load_store.md R200 to R203). -/

namespace Sys2Proof.Machine

variable {s : State} {a : Nat}

/-- In EXTENDED, LOAD_FLOAT reads its operand as LOAD does (R202). -/
theorem exec_loadFloat (hv : s.variant = .extended) :
    exec (.loadFloat a) s = withNumber a s fun x => .next ((s.setAcc x).setFloatMode.fallThrough none) :=
  extendedOnly_extended hv _

/-- In EXTENDED, STORE_FLOAT checks its operand as STORE does (R203). -/
theorem exec_storeFloat (hv : s.variant = .extended) :
    exec (.storeFloat a) s = withAddress a s (.next ((s.setWord a (.num s.acc)).setFloatMode.fallThrough none)) :=
  extendedOnly_extended hv _

/-- The word written at `a` is read there and nowhere else (20_memory.md R61). -/
theorem State.read_setWord (s : State) (a : Nat) (w : Word) :
    Memory.read (s.setWord a w).memory a = w ∧
    ∀ b, b ≠ a → Memory.read (s.setWord a w).memory b = Memory.read s.memory b :=
  ⟨Memory.read_write_same .., fun _ hb => Memory.read_write_other hb _ _⟩

end Sys2Proof.Machine

namespace Sys2Proof

open Machine

/-- Settles O35: LOAD reads its operand as every numeric instruction does. -/
theorem loadMovesTheWordToAcc : Obligations.LoadMovesTheWordToAcc :=
  fun _ _ => readsNumber_of_withNumber rfl

/-- Settles O36: in EXTENDED the opcode is in the table, and the operand is read as in LOAD. -/
theorem loadFloatAlsoSetsFloatMode : Obligations.LoadFloatAlsoSetsFloatMode :=
  fun _ _ hv => readsNumber_of_withNumber (exec_loadFloat hv)

/-- Settles O37: inside memory the next state is one write of ACC and the fall through. -/
theorem storeWritesAccToTheWord : Obligations.StoreWritesAccToTheWord := by
  intro s a
  obtain ⟨hsame, hother⟩ := s.read_setWord a (.num s.acc)
  exact ⟨fun ha => ⟨_, exec_store_of_lt ha, hsame, hother, rfl⟩, fun ha => withAddress_of_le ha _⟩

/-- Settles O38: in EXTENDED the two sides of the operand check are those of STORE, with FM set inside memory. -/
theorem storeFloatAlsoSetsFloatMode : Obligations.StoreFloatAlsoSetsFloatMode := by
  intro s a hv
  obtain ⟨hsame, hother⟩ := s.read_setWord a (.num s.acc)
  rw [exec_storeFloat hv]
  exact ⟨fun ha => ⟨_, withAddress_of_lt ha _, hsame, hother, rfl⟩, fun ha => withAddress_of_le ha _⟩

end Sys2Proof
end

section
/-! SUPPORT. The laws of XNUM, one lemma per operation (43_arithmetic.md R225, R226, R231, R232). -/

namespace Sys2Proof

/-! ### Operations on integers -/

@[simp] theorem XNum.add_ofInt (a b : Int) : (XNum.ofInt a).add (.ofInt b) = .ofInt (a + b) := by
  simp [XNum.add, XNum.onInts]

@[simp] theorem XNum.sub_ofInt (a b : Int) : (XNum.ofInt a).sub (.ofInt b) = .ofInt (a - b) := by
  simp [XNum.sub, XNum.onInts]

@[simp] theorem XNum.mul_ofInt (a b : Int) : (XNum.ofInt a).mul (.ofInt b) = .ofInt (a * b) := by
  simp [XNum.mul, XNum.onInts]

@[simp] theorem XNum.rem_ofInt (a b : Int) : (XNum.ofInt a).rem (.ofInt b) = .ofInt (Int.tmod a b) := by
  simp [XNum.rem, XNum.onInts]

theorem XNum.pow_ofInt {a b : Int} (h : 1 ≤ b ∨ (b = 0 ∧ a ≠ 0)) :
    (XNum.ofInt a).pow (.ofInt b) = .ofInt (a ^ b.toNat) := by
  simp [XNum.pow, XNum.onInts, h]

@[simp] theorem isMember_intCast (z : Int) : isMember (z : Rat) = true := by
  simp [isMember]

/-! ### The floor quotient and the two remainders -/

/-- The floor quotient is the greatest integer not above the rational one (R231). -/
theorem le_fdiv_iff (a p : Int) {b : Int} (hb : b ≠ 0) : p ≤ Int.fdiv a b ↔ (p : Rat) ≤ (a : Rat) / b := by
  rw [fdiv_eq_floor a hb, Int.le_floor]

/-- The remainder of a floor quotient has the sign of a positive divisor and is below it (R231). -/
theorem fdiv_remainder_of_pos (a : Int) {b : Int} (hb : 0 < b) :
    0 ≤ a - b * Int.fdiv a b ∧ a - b * Int.fdiv a b < b := by
  rw [← Int.fmod_def]
  exact ⟨Int.fmod_nonneg_of_pos a hb, Int.fmod_lt_of_pos a hb⟩

/-- The remainder of a floor quotient has the sign of a negative divisor and is above it (R231). -/
theorem fdiv_remainder_of_neg (a : Int) {b : Int} (hb : b < 0) :
    b < a - b * Int.fdiv a b ∧ a - b * Int.fdiv a b ≤ 0 := by
  rw [← Int.fmod_def]
  have hneg := Int.neg_fmod_neg a b
  have hnonneg := Int.fmod_nonneg_of_pos (-a) (Int.neg_pos_of_neg hb)
  have hlt := Int.fmod_lt_of_pos (-a) (Int.neg_pos_of_neg hb)
  omega

/-- A truncated remainder that is not zero has the sign of the dividend (R225, decision D21). -/
theorem tmod_nonpos {a : Int} (b : Int) (ha : a ≤ 0) : Int.tmod a b ≤ 0 := by
  have hnonneg := Int.tmod_nonneg b (Int.neg_nonneg_of_nonpos ha)
  rw [Int.neg_tmod] at hnonneg
  omega

theorem natAbs_tmod_lt (a : Int) {b : Int} (hb : b ≠ 0) : (Int.tmod a b).natAbs < b.natAbs := by
  rw [Int.natAbs_tmod]
  exact Nat.mod_lt _ (Int.natAbs_pos.mpr hb)

/-! ### The floor of `div` -/

theorem XNum.hasFloor_iff {n : Int} {x : XNum} :
    x.hasFloor n = true ↔ x.floor = .ofInt n ∧ (x.isNeg = true ↔ n < 0) ∧ (x.isZero = true → n = 0) := by
  rw [XNum.hasFloor, Bool.and_eq_true, Bool.and_eq_true, decide_eq_true_eq, decide_eq_true_eq, Bool.eq_iff_iff,
    decide_eq_true_eq, Bool.or_eq_true, decide_eq_true_eq, Bool.not_eq_true', and_assoc]
  cases x.isZero <;> simp

/-- `div` of integers has the floor of the exact quotient, is negative exactly if that is, and is a zero only if the
floor is 0 (R232, laws 3 and 5). -/
theorem XNum.floor_order_div_ofInt (a : Int) {b : Int} (hb : b ≠ 0) :
    ((XNum.ofInt a).div (.ofInt b)).floor = .ofInt ⌊(a : Rat) / b⌋ ∧
    (((XNum.ofInt a).div (.ofInt b)).isNeg = true ↔ (a : Rat) / b < 0) ∧
    (((XNum.ofInt a).div (.ofInt b)).isZero = true → ⌊(a : Rat) / b⌋ = 0) := by
  have hfloor := XNum.hasFloor_iff.mp (XNum.hasFloor_div (a := a) hb)
  rwa [fdiv_eq_floor a hb, Int.floor_lt, Int.cast_zero] at hfloor

theorem XNum.floorDiv_ofInt_eq_floor (a : Int) {b : Int} (hb : b ≠ 0) :
    (XNum.ofInt a).floorDiv (.ofInt b) = .ofInt ⌊(a : Rat) / b⌋ := by
  rw [XNum.floorDiv_ofInt, fdiv_eq_floor a hb]

theorem XNum.rat_ne_zero {q : Rat} (hq : q ≠ 0) : XNum.rat q ≠ .ofInt 0 := by
  simpa [XNum.ofInt] using hq

/-- DIVIDE stores the floor of a quotient that is a member (R223, R232 law 2). -/
theorem XNum.floorDiv_of_member {p q : Rat} (hq : q ≠ 0) (hm : isMember (p / q) = true) :
    (XNum.rat p).floorDiv (.rat q) = .ofInt ⌊p / q⌋ := by
  rw [floorDiv_eq_floor_div (XNum.rat_ne_zero hq), XNum.div_of_member hm]
  rfl

/-! ### The tests on rationals (R232, law 5) -/

@[simp] theorem XNum.isZero_rat (q : Rat) : (XNum.rat q).isZero = true ↔ q = 0 := by
  rw [XNum.isZero, decide_eq_true_iff, Rat.num_eq_zero]

@[simp] theorem XNum.isNeg_rat (q : Rat) : (XNum.rat q).isNeg = true ↔ q < 0 := by
  rw [XNum.isNeg, decide_eq_true_iff, Rat.num_neg]

theorem XNum.int?_rat_isSome_iff (q : Rat) : (∃ z, (XNum.rat q).int? = some z) ↔ ∃ z : Int, q = z := by
  constructor
  · rintro ⟨z, hz⟩
    exact ⟨z, XNum.rat.inj (XNum.eq_ofInt_of_exactInt? (x := .rat q) hz)⟩
  · rintro ⟨z, rfl⟩
    exact ⟨z, XNum.int?_ofInt z⟩

/-- Settles O46: each law is the lemma of its operation. -/
theorem xnumLawsHold : Obligations.XnumLawsHold := by
  refine ⟨fun a b => ⟨XNum.add_ofInt a b, XNum.sub_ofInt a b, XNum.mul_ofInt a b⟩,
    fun _ _ _ => XNum.div_of_member, isMember_intCast, fun a _ => XNum.floorDiv_ofInt_eq_floor a,
    fun a _ => XNum.floor_order_div_ofInt a, fun _ _ => floorDiv_eq_floor_div,
    fun _ _ => XNum.floorDiv_of_member, fun a b hb => ?_, fun a n hn => ?_, fun a ha => ?_,
    fun q => ⟨XNum.isZero_rat q, XNum.isNeg_rat q, XNum.int?_rat_isSome_iff q⟩⟩
  · exact ⟨_, XNum.rem_ofInt a b, ⟨_, (Int.mul_tdiv_add_tmod a b).symm⟩, natAbs_tmod_lt a hb, Int.tmod_nonneg b,
      tmod_nonpos b⟩
  · simpa using XNum.pow_ofInt (a := a) (b := n) (.inl (by omega))
  · simpa using XNum.pow_ofInt (a := a) (b := 0) (.inr ⟨rfl, ha⟩)

end Sys2Proof
end

section
/-! SUPPORT. The arithmetic instructions as equations: the operand forms of 43_arithmetic.md R221 to R230, and what
becomes of two integers in ACC and at the operand (R220, R223, R231). -/

namespace Sys2Proof.Machine

variable {s : State} {a : Nat} {x y : Int}

/-! ### The operand forms -/

/-- An instruction whose operand is a divisor has the form of R221, with the zero test before the result
(60_exceptions.md R286). -/
theorem readsNumber_of_withDivisor {i : Nat → Instr} {k : XNum → Result} (h : exec (i a) s = withDivisor a s k) :
    ReadsNumber i s a fun m => if m.isZero then .next (s.raise .eDivZero) else k m :=
  readsNumber_of_withNumber h

theorem withDivisor_of_zero (ha : a < s.variant.words) (hm : Memory.read s.memory a = .ofInt 0) (k : XNum → Result) :
    withDivisor a s k = .next (s.raise .eDivZero) :=
  (withNumber_num ha hm _).trans (if_pos (by simp))

theorem withDivisor_of_ne_zero (ha : a < s.variant.words) (hy : y ≠ 0) (hm : Memory.read s.memory a = .ofInt y)
    (k : XNum → Result) : withDivisor a s k = k (.ofInt y) :=
  (withNumber_num ha hm _).trans (if_neg (by simpa using hy))

/-- The arithmetic step of EXTENDED as a function of the number at the operand. -/
theorem arithmetic_eq_arithmeticX (hv : s.variant = .extended) (f : Int → Int → Int) (g : XNum → XNum → XNum) :
    arithmetic f g s = arithmeticX g s :=
  funext (arithmetic_extended hv f g)

/-! ### Integers in ACC and at the operand -/

/-- In BASIC an arithmetic instruction on two integers commits the exact result (R220). -/
theorem withNumber_arithmetic_basic (hv : s.variant = .basic) (ha : a < s.variant.words) (hx : s.acc = .ofInt x)
    (hy : Memory.read s.memory a = .ofInt y) (f : Int → Int → Int) (g : XNum → XNum → XNum) :
    withNumber a s (arithmetic f g s) = aluCommit (f x y) s :=
  (withNumber_num ha hy _).trans (arithmetic_basic hv f g hx)

/-- DIVIDE of two integers stores their floor quotient in both variants: in BASIC it is no larger than ACC, so that it
never overflows (R223). -/
theorem exec_divide_ofInt (ha : a < s.variant.words) (hx : s.acc = .ofInt x)
    (hbasic : s.variant = .basic → x.natAbs ≤ 9999) (hm : Memory.read s.memory a = .ofInt y) (hy : y ≠ 0) :
    exec (.divide a) s = .next ((s.setAcc (.ofInt (Int.fdiv x y))).fallThrough none) := by
  rw [exec, execDivide, withDivisor_of_ne_zero ha hy hm]
  rcases s.variant.basic_or_extended with hv | hv
  · rw [arithmetic_basic hv _ _ hx, aluCommit_of_le ((natAbs_fdiv_le x y).trans (hbasic hv))]
  · rw [arithmetic_extended hv, hx, XNum.floorDiv_ofInt]

end Sys2Proof.Machine

namespace Sys2Proof

open Machine

/-- Settles O39: each of the three instructions commits its exact result, which is stored or overflows. -/
theorem basicArithmeticIsExactOrOverflows : Obligations.BasicArithmeticIsExactOrOverflows := by
  intro s a x y hv ha hx hy i r hir
  have hcommit : exec (i a) s = aluCommit r s := by
    simp only [List.mem_cons, List.not_mem_nil, or_false, Prod.mk.injEq] at hir
    rcases hir with ⟨rfl, rfl⟩ | ⟨rfl, rfl⟩ | ⟨rfl, rfl⟩
    · exact withNumber_arithmetic_basic hv ha hx hy (· + ·) XNum.add
    · exact withNumber_arithmetic_basic hv ha hx hy (· - ·) XNum.sub
    · exact withNumber_arithmetic_basic hv ha hx hy (· * ·) XNum.mul
  rw [hcommit]
  exact ⟨fun h => aluCommit_of_le h s, fun h => aluCommit_of_lt h s⟩

/-- Settles O40: the zero test, and otherwise the floor quotient, which is the floor of the rational one. -/
theorem basicDivideStoresTheFloor : Obligations.BasicDivideStoresTheFloor := by
  intro s a x y _ ha hx hle hm
  constructor
  · intro hy
    rw [← fdiv_eq_floor x hy]
    exact exec_divide_ofInt ha hx (fun _ => hle) hm hy
  · rintro rfl
    exact withDivisor_of_zero ha hm _

/-- Settles O45: what DIVIDE stores is the floor quotient, and each row of R231's table is one. -/
theorem floorDivisionIsTheGreatestIntegerBelow : Obligations.FloorDivisionIsTheGreatestIntegerBelow := by
  constructor
  · intro a b hb
    exact ⟨Int.fdiv a b, fun s k hk hx hle hm => exec_divide_ofInt hk hx hle hm hb,
      (le_fdiv_iff a _ hb).mp le_rfl, fun p => (le_fdiv_iff a p hb).mpr,
      fdiv_remainder_of_pos a, fdiv_remainder_of_neg a⟩
  · intro row hrow
    have htable : row.2.1 ≠ 0 ∧ row.1.natAbs ≤ 9999 ∧ Int.fdiv row.1 row.2.1 = row.2.2 := by
      revert row; decide
    obtain ⟨hb, hle, hq⟩ := htable
    rw [← hq]
    exact fun s k hk hx hm => exec_divide_ofInt hk hx (fun _ => hle) hm hb

/-- Settles O41: in EXTENDED the arithmetic step of a number is its XNUM result. -/
theorem extendedArithmeticStoresTheXnumResult : Obligations.ExtendedArithmeticStoresTheXnumResult := by
  intro s a hv
  have hstep (f g) : withNumber a s (arithmetic f g s) = withNumber a s (arithmeticX g s) := by
    rw [arithmetic_eq_arithmeticX hv]
  exact ⟨readsNumber_of_withNumber (hstep _ XNum.add), readsNumber_of_withNumber (hstep _ XNum.sub),
    readsNumber_of_withNumber (hstep _ XNum.mul)⟩

/-- Settles O42: DIVIDE and MODULO read a divisor, POWER a number; the last two are in the table of EXTENDED. -/
theorem extendedDivideModuloPowerStoreTheXnumResult : Obligations.ExtendedDivideModuloPowerStoreTheXnumResult := by
  intro s a hv
  have hdivide : exec (.divide a) s = withDivisor a s (arithmeticX XNum.floorDiv s) := by
    rw [exec, execDivide, arithmetic_eq_arithmeticX hv]
  exact ⟨readsNumber_of_withDivisor hdivide, readsNumber_of_withDivisor (extendedOnly_extended hv _),
    readsNumber_of_withNumber (extendedOnly_extended hv _)⟩

/-- Settles O43: in EXTENDED the three opcodes are in the table, and each is its float step. -/
theorem floatArithmeticStoresTheResultAndSetsFloatMode : Obligations.FloatArithmeticStoresTheResultAndSetsFloatMode :=
  fun _ _ hv => ⟨readsNumber_of_withNumber (extendedOnly_extended hv _),
    readsNumber_of_withNumber (extendedOnly_extended hv _), readsNumber_of_withNumber (extendedOnly_extended hv _)⟩

/-- Settles O44: in EXTENDED the opcode is in the table, and the zero test comes before ACC and FM are written. -/
theorem divideFloatStoresTheQuotient : Obligations.DivideFloatStoresTheQuotient :=
  fun _ _ hv => readsNumber_of_withDivisor (extendedOnly_extended hv _)

end Sys2Proof
end

section
/-! SUPPORT. Control transfer and halt (44_control.md R260 to R263). -/

namespace Sys2Proof

open Machine

/-- Settles O47: a branch that is taken jumps to its operand, and one that is not taken falls through. -/
theorem branchesSetTheCounter : Obligations.BranchesSetTheCounter := by
  intro s t
  refine ⟨?branch, ?negTaken, ?negStay, ?zeroTaken, ?zeroStay⟩
  case branch => exact exec_of_jumps (i := .branch t) rfl
  case negTaken => exact exec_of_jumps (i := .branchneg t)
  case negStay => exact exec_branchneg_stay
  case zeroTaken => exact exec_of_jumps (i := .branchzero t)
  case zeroStay => exact exec_branchzero_stay

/-- Settles O48: HALT makes no test of the operand or of the state, so that its writes are the whole equation. -/
theorem haltStopsAndAppendsTheMessage : Obligations.HaltStopsAndAppendsTheMessage :=
  fun _ _ => rfl

end Sys2Proof
end

section
/-! SUPPORT. Every command of a BASIC core answers a next state, and what SNAPSHOT answers (60_exceptions.md R294,
R299). -/

namespace Sys2Proof.Machine

variable {s : State}

/-- An instruction is refused in EXTENDED only: it met a string, or it is a WRITE_STRING (41_io.md R163, 43_arithmetic.md
R233). -/
theorem Inv.extended_of_execRefused (hi : Inv s) {i : Instr} {r : Refusal} (h : ExecRefused s i r) :
    s.variant = .extended := by
  rcases h with ⟨-, -, t, ht⟩ | ⟨a, -, hv, -⟩
  · exact hi.extended_of_str ht
  · exact hv

/-- A command is refused in EXTENDED only: a STEP by its instruction, a PROVIDE_INPUT by a request for a string
(41_io.md R162, R167). -/
theorem Inv.extended_of_runCommand_refused (hi : Inv s) {c : Command} {r : Refusal} (h : runCommand c s = .refused r) :
    s.variant = .extended := by
  cases c with
  | reset | load | loadText | snapshot => cases h
  | step =>
    have hstop : stepCommand s = .refused r := h
    obtain ⟨hh, hp, hic, i, hd, he⟩ := stepCommand_stops (s := s) (by simp [hstop])
    exact (hi.dispatched hh hp hic hd).inv.extended_of_execRefused (exec_refused (he.symm.trans hstop))
  | provideInput v =>
    have hr := provideInput_cases v s
    rw [show provideInput v s = .refused r from h] at hr
    cases hr with
    | refused p hp hk => exact hi.extended_of_string hp hk

end Sys2Proof.Machine

namespace Sys2Proof

open Machine

/-- Settles O19: the invariants leave no fault, and in BASIC nothing is refused, so that a next state is what remains. -/
theorem basicStepAlwaysAnswers : Obligations.BasicStepAlwaysAnswers := by
  intro s hi hv
  cases h : step s with
  | next t => exact ⟨t, rfl⟩
  | fault f => exact absurd h (noStepFaultsUnderTheInvariants s f hi)
  | refused r =>
    have hext := hi.nextCommand.extended_of_runCommand_refused h
    rw [nextCommand_variant, hv] at hext
    cases hext

/-- Settles O60: taking SNAPSHOT off the queue leaves the architectural state that it copies. -/
theorem snapshotCopiesTheState : Obligations.SnapshotCopiesTheState :=
  fun _ _ hc => step_cons hc

end Sys2Proof
end

section
/-! SUPPORT. What RESET and a LOAD that succeeds leave (70_reset_and_hazards.md R330, R332 to R335). -/

namespace Sys2Proof.Machine

variable {s : State} {image : Image} {cs : List Command}

/-- RESET keeps the variant and the host's later commands only (R330). -/
theorem step_reset (hc : s.commands = .reset :: cs) :
    step s = .next { State.resetOf s.variant with commands := cs, reply := .completed } :=
  step_cons hc

/-- Installed in the zero memory, an image reads back as its last entries (R335). -/
theorem Memory.read_install_reset (h : ∀ e ∈ image, 0 ≤ e.1) (a : Nat) :
    Memory.read (install image []) a = image.lastWord a :=
  Memory.read_install image [] a h

/-- A LOAD of loadable entries leaves the reset state with the image installed (R332). -/
theorem step_load_loaded (hc : s.commands = .load image :: cs) (h : ∀ e ∈ image, LoadableEntry s.variant e) :
    step s = .next { State.resetOf s.variant with memory := install image [], commands := cs, reply := .loaded } := by
  have he : firstError? s.variant 0 image = none := firstError?_eq_none.mpr fun e hm => loadableEntry_iff.mp (h e hm)
  rw [step_cons hc, runCommand, loadImage]
  simp only [he]
  rfl

/-- A LOAD of a text that parses is the LOAD of its image (R332). -/
theorem step_loadText_parsed {t : Text} (hc : s.commands = .loadText t :: cs) (ht : parseText s.variant t = .ok image) :
    step s = step { s with commands := .load image :: cs } := by
  rw [step_cons hc, step_cons (s := { s with commands := .load image :: cs }) rfl, runCommand, runCommand, loadText]
  simp only [ht]

end Sys2Proof.Machine

namespace Sys2Proof

open Machine

/-- Settles O57: the entries validate, so that the image is installed in the zero memory, where the last entry of an
address is what stays. -/
theorem loadedImageReadsBack : Obligations.LoadedImageReadsBack := by
  constructor
  · intro s image cs hc h
    exact ⟨_, step_load_loaded hc h, Memory.read_install_reset fun e he => (h e he).address.1, rfl⟩
  · exact fun s t image cs => step_loadText_parsed

/-- Settles O56: every component of the state RESET leaves has its reset value, and the zero memory reads 0. -/
theorem resetZeroesEverything : Obligations.ResetZeroesEverything :=
  fun _ _ hc => ⟨_, step_reset hc, fun _ => rfl, rfl, rfl, rfl, rfl, rfl, rfl, rfl, rfl, rfl, rfl, rfl⟩

end Sys2Proof
end
